-- ==== Sys2Proof/Word.lean ====
section
/-! DEFINITION. The word types of spec/00_scope.md rules R5 and R7 and the widths of the instruction fields (spec/30_encoding.md rules R51 to R53). -/

namespace Sys2Proof

/-- A word: a 32-bit value; register contents, addresses, the PC and instruction words (R5, R7). -/
abbrev Word := BitVec 32

/-- A memory byte (R25, R30). -/
abbrev Byte := BitVec 8

/-- A 5-bit register field, used as an index 0 to 31 (R5, R51). -/
abbrev RegIdx := BitVec 5

/-- The 5-bit `shamt` field (R51). -/
abbrev Shamt := BitVec 5

/-- The 16-bit `imm` field, raw bits (R52). -/
abbrev Imm := BitVec 16

/-- The 26-bit `address` field of the jump format (R53). -/
abbrev JumpAddr := BitVec 26

end Sys2Proof
end

