-- ==== Sys2Proof/Config.lean ====
section
/-! DEFINITION. The named parameters of spec/00_scope.md rule R6 as one record of plain data. Their chosen values stand in Sys2Proof/Decode.lean (`Config.chosen`). -/

namespace Sys2Proof

/-- The (pattern, mask) pair of a dispatch table entry (R55). -/
structure MaskMatch where
  pattern : Word
  mask : Word
  deriving DecidableEq, Repr

/-- `ENDIAN`: the byte order of the memory collaborator (R33). -/
inductive Endian where
  | little
  | big
  deriving DecidableEq, Repr

/-- `MISALIGNED`: what a non-word-aligned address does; the two admissible values of R36. -/
inductive Misaligned where
  | refuse
  | leBytes
  deriving DecidableEq, Repr

/-- A range of byte addresses backed by storage: `base` to `base + size - 1` (`MEM_REGIONS`, R39). -/
structure Region where
  base : Nat
  size : Nat
  deriving DecidableEq, Repr

/-- The parameters of R6, but `MEM_INIT`, which is the launch contents of the memory itself. -/
structure Config where
  /-- `ENC`: one pair for each of the 19 rows of R55, in that order. -/
  enc : Vector MaskMatch 19
  /-- `LI_ENTRY`: the pair of the `li` row, or none (R58). -/
  liEntry : Option MaskMatch
  /-- `RESET_PC` (R24). -/
  resetPc : Word
  /-- `RESET_REGS`: registers 1 to 31 after reset (R24). -/
  resetRegs : Vector Word 31
  /-- `ENDIAN` (R33). -/
  endian : Endian
  /-- `MISALIGNED` (R36). -/
  misaligned : Misaligned
  /-- `MEM_REGIONS` (R39). -/
  memRegions : List Region
  deriving DecidableEq, Repr

end Sys2Proof
end

