-- ==== Sys2Proof/Syntax.lean ====
section
/-! DEFINITION. The 21 handlers of spec/10_state.md rule R23 and the instructions as syntax: one constructor per row of spec/opcode_table.json, each with ALL the bits its word has beyond the row's fixed bits (the ignored fields of spec/30_encoding.md rule R60 too), so that encoding loses nothing. -/

namespace Sys2Proof

/-- The values of `SEL`: the 19 handlers in the order of R55, then `li`, then `halt` (R23). -/
inductive Handler where
  | add | addu | sub | subu | jr
  | lui | ori | addi | addiu | lw | sw | bne | beq | bgtz | slti | sb | lb
  | j | jal
  | li
  | halt
  deriving DecidableEq, Repr

/-- The handlers of the 19 real rows, in the order of R55 (decision D4). -/
def Handler.real : List Handler :=
  [.add, .addu, .sub, .subu, .jr, .lui, .ori, .addi, .addiu, .lw, .sw, .bne, .beq, .bgtz, .slti,
   .sb, .lb, .j, .jal]

/-- An instruction word seen through the format its handler reads (R51 to R54). -/
inductive Instr where
  -- register format, R51 (R90 to R94)
  | add (rs rt rd : RegIdx) (shamt : Shamt)
  | addu (rs rt rd : RegIdx) (shamt : Shamt)
  | sub (rs rt rd : RegIdx) (shamt : Shamt)
  | subu (rs rt rd : RegIdx) (shamt : Shamt)
  | jr (rs rt rd : RegIdx) (shamt : Shamt)
  -- immediate format, R52 (R100 to R104, R110 to R113, R120 to R122)
  | lui (rs rt : RegIdx) (imm : Imm)
  | ori (rs rt : RegIdx) (imm : Imm)
  | addi (rs rt : RegIdx) (imm : Imm)
  | addiu (rs rt : RegIdx) (imm : Imm)
  | lw (rs rt : RegIdx) (imm : Imm)
  | sw (rs rt : RegIdx) (imm : Imm)
  | bne (rs rt : RegIdx) (imm : Imm)
  | beq (rs rt : RegIdx) (imm : Imm)
  | bgtz (rs rt : RegIdx) (imm : Imm)
  | slti (rs rt : RegIdx) (imm : Imm)
  | sb (rs rt : RegIdx) (imm : Imm)
  | lb (rs rt : RegIdx) (imm : Imm)
  -- jump format, R53 (R130, R131)
  | j (address : JumpAddr)
  | jal (address : JumpAddr)
  /-- A word that selects the `li` entry; it has no operand the hardware uses (R140). -/
  | li (word : Word)
  /-- A word that no table entry matches; `halt` has no encoding of its own (R61, R141). -/
  | halt (word : Word)
  deriving DecidableEq, Repr

/-- The handler that gives an instruction its meaning. -/
def Instr.handler : Instr → Handler
  | .add _ _ _ _ => .add
  | .addu _ _ _ _ => .addu
  | .sub _ _ _ _ => .sub
  | .subu _ _ _ _ => .subu
  | .jr _ _ _ _ => .jr
  | .lui _ _ _ => .lui
  | .ori _ _ _ => .ori
  | .addi _ _ _ => .addi
  | .addiu _ _ _ => .addiu
  | .lw _ _ _ => .lw
  | .sw _ _ _ => .sw
  | .bne _ _ _ => .bne
  | .beq _ _ _ => .beq
  | .bgtz _ _ _ => .bgtz
  | .slti _ _ _ => .slti
  | .sb _ _ _ => .sb
  | .lb _ _ _ => .lb
  | .j _ => .j
  | .jal _ => .jal
  | .li _ => .li
  | .halt _ => .halt

end Sys2Proof
end

