-- ==== Sys2Proof/WellFormed.lean ====
section
/-! DEFINITION. Which instruction terms stand for an instruction word (under an `LI_ENTRY`), and which configurations are well formed (spec/30_encoding.md rules R57, R58, R61). -/

namespace Sys2Proof

/-- The 14 opcodes with a row of their own, as R61 lists them. -/
def realOpcodes : List (BitVec 6) :=
  [0x02, 0x03, 0x04, 0x05, 0x07, 0x08, 0x09, 0x0A, 0x0D, 0x0F, 0x20, 0x23, 0x28, 0x2B]

/-- The 5 functs with a row under opcode 0, as R61 lists them. -/
def realFuncts : List (BitVec 6) := [0x08, 0x20, 0x21, 0x22, 0x23]

/-- `w` is outside the unmatched words that R61 lists by opcode and funct. -/
def realWord (w : Word) : Bool :=
  realOpcodes.contains (w.extractLsb' 26 6) ||
    (w.extractLsb' 26 6 == 0 && realFuncts.contains (w.extractLsb' 0 6))

/-- `w` has the `li` pattern, where there is one (R58). -/
def liWord (li : Option MaskMatch) (w : Word) : Bool :=
  li.any fun m => w &&& m.mask == m.pattern

/-- A `li` term holds a word of the `li` entry, a `halt` term a word that nothing matches; the fields
of every other term may have any value, so each of them is well formed. -/
def Instr.wf (li : Option MaskMatch) : Instr → Bool
  | .add _ _ _ _ => true
  | .addu _ _ _ _ => true
  | .sub _ _ _ _ => true
  | .subu _ _ _ _ => true
  | .jr _ _ _ _ => true
  | .lui _ _ _ => true
  | .ori _ _ _ => true
  | .addi _ _ _ => true
  | .addiu _ _ _ => true
  | .lw _ _ _ => true
  | .sw _ _ _ => true
  | .bne _ _ _ => true
  | .beq _ _ _ => true
  | .bgtz _ _ _ => true
  | .slti _ _ _ => true
  | .sb _ _ _ => true
  | .lb _ _ _ => true
  | .j _ => true
  | .jal _ => true
  | .li w => liWord li w
  | .halt w => !realWord w && !liWord li w

/-- The pattern has no bit outside the mask (R58), so the pair matches some word. -/
def MaskMatch.inMask (m : MaskMatch) : Bool := m.pattern &&& ~~~m.mask == 0

/-- No word matches both pairs: a bit that both masks examine differs (R57). -/
def MaskMatch.disjoint (a b : MaskMatch) : Bool :=
  (a.pattern ^^^ b.pattern) &&& a.mask &&& b.mask != 0

/-- Every pair of the list is disjoint from every later one. -/
def pairwiseDisjoint : List MaskMatch → Bool
  | [] => true
  | m :: ms => ms.all m.disjoint && pairwiseDisjoint ms

/-- A well-formed configuration: each pattern inside its mask, all entries mutually exclusive, the `li`
entry among them (R57, R58), each backed range inside the 2^32 addresses (R39). -/
def Config.wf (c : Config) : Bool :=
  (c.enc.toList ++ c.liEntry.toList).all MaskMatch.inMask &&
    pairwiseDisjoint (c.enc.toList ++ c.liEntry.toList) &&
    c.memRegions.all fun r => r.base + r.size ≤ 2 ^ 32

end Sys2Proof
end

