-- ==== Sys2Proof/Decode.lean ====
section
/-! DEFINITION. Field extraction, the dispatch table and its arbiter (spec/30_encoding.md, spec/40_cycle_dispatch.md section 2), the decoder of words and of bytes, the encoder, the chosen parameter values, and the assembler's field settings (rules R62, R63). -/

namespace Sys2Proof

/-! ## Fields (R51 to R53, R73): any word can be read under any view (R54) -/

def opcodeOf (w : Word) : BitVec 6 := w.extractLsb' 26 6
def rsOf (w : Word) : RegIdx := w.extractLsb' 21 5
def rtOf (w : Word) : RegIdx := w.extractLsb' 16 5
def rdOf (w : Word) : RegIdx := w.extractLsb' 11 5
def shamtOf (w : Word) : Shamt := w.extractLsb' 6 5
def functOf (w : Word) : BitVec 6 := w.extractLsb' 0 6
def immOf (w : Word) : Imm := w.extractLsb' 0 16
def addressOf (w : Word) : JumpAddr := w.extractLsb' 0 26

/-! ## The dispatch table (R55, R58) and the arbiter (R56, R74, R76) -/

/-- The match predicate, R56. -/
def MaskMatch.hits (m : MaskMatch) (w : Word) : Bool := w &&& m.mask == m.pattern

/-- A dispatch table entry: pattern, mask, handler (R55). -/
structure Entry where
  key : MaskMatch
  handler : Handler
  deriving DecidableEq, Repr

/-- The table of a configuration: the 19 real rows in the order of R55, then the `li` row where there
is one, last (R58, R74). -/
def Config.table (c : Config) : List Entry :=
  List.zipWith Entry.mk c.enc.toList Handler.real ++ c.liEntry.toList.map fun m => ⟨m, .li⟩

/-- The match vector, R74: every entry is compared. -/
def matchVector (table : List Entry) (w : Word) : List Bool := table.map fun e => e.key.hits w

/-- The dispatch arbiter, R76: scan in order and keep the last match; `halt` where nothing matches. -/
def arbiter (table : List Entry) (w : Word) : Handler :=
  table.foldl (fun sel e => if e.key.hits w then e.handler else sel) .halt

/-- The word seen through the format of the selected handler (R54: exactly one interpretation is
valid, selected by the matched entry). -/
def Handler.view (h : Handler) (w : Word) : Instr :=
  match h with
  | .add => .add (rsOf w) (rtOf w) (rdOf w) (shamtOf w)
  | .addu => .addu (rsOf w) (rtOf w) (rdOf w) (shamtOf w)
  | .sub => .sub (rsOf w) (rtOf w) (rdOf w) (shamtOf w)
  | .subu => .subu (rsOf w) (rtOf w) (rdOf w) (shamtOf w)
  | .jr => .jr (rsOf w) (rtOf w) (rdOf w) (shamtOf w)
  | .lui => .lui (rsOf w) (rtOf w) (immOf w)
  | .ori => .ori (rsOf w) (rtOf w) (immOf w)
  | .addi => .addi (rsOf w) (rtOf w) (immOf w)
  | .addiu => .addiu (rsOf w) (rtOf w) (immOf w)
  | .lw => .lw (rsOf w) (rtOf w) (immOf w)
  | .sw => .sw (rsOf w) (rtOf w) (immOf w)
  | .bne => .bne (rsOf w) (rtOf w) (immOf w)
  | .beq => .beq (rsOf w) (rtOf w) (immOf w)
  | .bgtz => .bgtz (rsOf w) (rtOf w) (immOf w)
  | .slti => .slti (rsOf w) (rtOf w) (immOf w)
  | .sb => .sb (rsOf w) (rtOf w) (immOf w)
  | .lb => .lb (rsOf w) (rtOf w) (immOf w)
  | .j => .j (addressOf w)
  | .jal => .jal (addressOf w)
  | .li => .li w
  | .halt => .halt w

/-- Decode under a configuration: a pure, total function of the word (R77); an unmatched word is
`halt` (R61). -/
def decodeWith (c : Config) (w : Word) : Instr := (arbiter c.table w).view w

/-! ## The chosen parameter values (R6) -/

/-- `ENC`, the rows of R55 (decisions D1, D2: the MIPS32 numbers, minimal masks). -/
def specEnc : Vector MaskMatch 19 := #v[
  ⟨0x00000020, 0xFC00003F⟩, -- add
  ⟨0x00000021, 0xFC00003F⟩, -- addu
  ⟨0x00000022, 0xFC00003F⟩, -- sub
  ⟨0x00000023, 0xFC00003F⟩, -- subu
  ⟨0x00000008, 0xFC00003F⟩, -- jr
  ⟨0x3C000000, 0xFC000000⟩, -- lui
  ⟨0x34000000, 0xFC000000⟩, -- ori
  ⟨0x20000000, 0xFC000000⟩, -- addi
  ⟨0x24000000, 0xFC000000⟩, -- addiu
  ⟨0x8C000000, 0xFC000000⟩, -- lw
  ⟨0xAC000000, 0xFC000000⟩, -- sw
  ⟨0x14000000, 0xFC000000⟩, -- bne
  ⟨0x10000000, 0xFC000000⟩, -- beq
  ⟨0x1C000000, 0xFC000000⟩, -- bgtz
  ⟨0x28000000, 0xFC000000⟩, -- slti
  ⟨0xA0000000, 0xFC000000⟩, -- sb
  ⟨0x80000000, 0xFC000000⟩, -- lb
  ⟨0x08000000, 0xFC000000⟩, -- j
  ⟨0x0C000000, 0xFC000000⟩] -- jal

/-- The parameter values of the model: those of R6, but `MISALIGNED`, for which the model takes
`le_bytes`, the value of R36 that gives the access an effect.
DESIGN CHOICE (unsafe, notes/assumptions/1.md; `RESET_PC` 2.md, `ENC` 6.md, `LI_ENTRY` 7.md, `ENDIAN` 8.md). -/
def Config.chosen : Config where
  enc := specEnc
  liEntry := none
  resetPc := 0x00400000
  resetRegs := Vector.replicate 31 0
  endian := .little
  misaligned := .leBytes
  memRegions := [⟨0, 2 ^ 32⟩]

/-- `Config.chosen` with every parameter exactly as R6 lists it, `MISALIGNED = refuse` included. -/
def Config.listed : Config := { Config.chosen with misaligned := .refuse }

/-- The decoder under the chosen parameters. -/
def decode (w : Word) : Instr := decodeWith Config.chosen w

/-! ## Bytes: how a word lies in memory (R33) -/

/-- The word formed from the bytes at `a`, `a+1`, `a+2`, `a+3` (R31, R33). -/
def Endian.join (e : Endian) (b0 b1 b2 b3 : Byte) : Word :=
  match e with
  | .little => b3 ++ b2 ++ b1 ++ b0
  | .big => b0 ++ b1 ++ b2 ++ b3

/-- The byte of `v` that lies at the word's address plus `k`, for `k` in 0 to 3 (R32, R33). -/
def Endian.byteOf (e : Endian) (v : Word) (k : Nat) : Byte :=
  match e with
  | .little => v.extractLsb' (8 * k) 8
  | .big => v.extractLsb' (24 - 8 * k) 8

/-- The four bytes of a word in address order. -/
def Endian.bytes (e : Endian) (v : Word) : List Byte :=
  [e.byteOf v 0, e.byteOf v 1, e.byteOf v 2, e.byteOf v 3]

/-- Why a byte string holds no instruction. -/
inductive DecodeError where
  /-- Fewer than the four bytes of the one instruction length (R50) are left. -/
  | truncated (available : Nat)
  deriving DecidableEq, Repr

/-- Decode the instruction at the head of a byte string and return the rest. Total: every four bytes
are an instruction (R61), and a shorter string is rejected by name. -/
def decodeBytes (c : Config) : List Byte → Except DecodeError (Instr × List Byte)
  | b0 :: b1 :: b2 :: b3 :: rest => .ok (decodeWith c (c.endian.join b0 b1 b2 b3), rest)
  | bs => .error (.truncated bs.length)

/-! ## The encoder (R51 to R53, R55) -/

def rWord (funct : BitVec 6) (rs rt rd : RegIdx) (shamt : Shamt) : Word :=
  0#6 ++ rs ++ rt ++ rd ++ shamt ++ funct

def iWord (opcode : BitVec 6) (rs rt : RegIdx) (imm : Imm) : Word :=
  opcode ++ rs ++ rt ++ imm

def jWord (opcode : BitVec 6) (address : JumpAddr) : Word :=
  opcode ++ address

/-- The word of an instruction, from the opcode and funct columns of R55. -/
def encode : Instr → Word
  | .add rs rt rd shamt => rWord 0x20 rs rt rd shamt
  | .addu rs rt rd shamt => rWord 0x21 rs rt rd shamt
  | .sub rs rt rd shamt => rWord 0x22 rs rt rd shamt
  | .subu rs rt rd shamt => rWord 0x23 rs rt rd shamt
  | .jr rs rt rd shamt => rWord 0x08 rs rt rd shamt
  | .lui rs rt imm => iWord 0x0F rs rt imm
  | .ori rs rt imm => iWord 0x0D rs rt imm
  | .addi rs rt imm => iWord 0x08 rs rt imm
  | .addiu rs rt imm => iWord 0x09 rs rt imm
  | .lw rs rt imm => iWord 0x23 rs rt imm
  | .sw rs rt imm => iWord 0x2B rs rt imm
  | .bne rs rt imm => iWord 0x05 rs rt imm
  | .beq rs rt imm => iWord 0x04 rs rt imm
  | .bgtz rs rt imm => iWord 0x07 rs rt imm
  | .slti rs rt imm => iWord 0x0A rs rt imm
  | .sb rs rt imm => iWord 0x28 rs rt imm
  | .lb rs rt imm => iWord 0x20 rs rt imm
  | .j address => jWord 0x02 address
  | .jal address => jWord 0x03 address
  | .li w => w
  | .halt w => w

/-- The bytes of an instruction in address order. -/
def encodeBytes (c : Config) (i : Instr) : List Byte := c.endian.bytes (encode i)

/-! ## The host's view of the decoder -/

/-- The instruction the decoder reads from the word whose bits are `w`, laid out in memory in the
chosen byte order. No instruction is longer than 32 bits (R50). -/
def decodeTableWord (nbits w : Nat) : Option Instr :=
  if nbits ≤ 32 then
    match decodeBytes Config.chosen (Config.chosen.endian.bytes (BitVec.ofNat 32 (w % 2 ^ nbits))) with
    | .ok (i, _) => some i
    | .error _ => none
  else none

/-! ## Assembler field settings and pseudo-instructions (R62, R63; decision D21)

The hardware consumes words, not text: these give the terms the assembler syntax stands for, with 0
in every ignored field (R60). -/

def asmAdd (rd rs rt : RegIdx) : Instr := .add rs rt rd 0
def asmAddu (rd rs rt : RegIdx) : Instr := .addu rs rt rd 0
def asmSub (rd rs rt : RegIdx) : Instr := .sub rs rt rd 0
def asmSubu (rd rs rt : RegIdx) : Instr := .subu rs rt rd 0
def asmJr (rs : RegIdx) : Instr := .jr rs 0 0 0
def asmLui (rt : RegIdx) (imm : Imm) : Instr := .lui 0 rt imm
def asmOri (rt rs : RegIdx) (imm : Imm) : Instr := .ori rs rt imm
def asmAddi (rt rs : RegIdx) (imm : Imm) : Instr := .addi rs rt imm
def asmAddiu (rt rs : RegIdx) (imm : Imm) : Instr := .addiu rs rt imm
def asmSlti (rt rs : RegIdx) (imm : Imm) : Instr := .slti rs rt imm
def asmLw (rt : RegIdx) (imm : Imm) (rs : RegIdx) : Instr := .lw rs rt imm
def asmSw (rt : RegIdx) (imm : Imm) (rs : RegIdx) : Instr := .sw rs rt imm
def asmLb (rt : RegIdx) (imm : Imm) (rs : RegIdx) : Instr := .lb rs rt imm
def asmSb (rt : RegIdx) (imm : Imm) (rs : RegIdx) : Instr := .sb rs rt imm
def asmBeq (rs rt : RegIdx) (imm : Imm) : Instr := .beq rs rt imm
def asmBne (rs rt : RegIdx) (imm : Imm) : Instr := .bne rs rt imm
def asmBgtz (rs : RegIdx) (imm : Imm) : Instr := .bgtz rs 0 imm
def asmJ (target : Word) : Instr := .j (target.extractLsb' 2 26)
def asmJal (target : Word) : Instr := .jal (target.extractLsb' 2 26)

/-- The branch count of a label, `(label - address_of_branch) / 4` (R62). -/
def asmBranchCount (label branch : Word) : Imm := (label - branch).extractLsb' 2 16

/-- The expansion of `li rt, value` that works for any 32-bit value (R63). -/
def asmLi (rt : RegIdx) (value : Word) : List Instr :=
  [asmLui rt (value.extractLsb' 16 16), asmOri rt rt (value.extractLsb' 0 16)]

/-- The one-instruction expansion for `0 <= value <= 0xFFFF` (R63). -/
def asmLiShort (rt : RegIdx) (value : Imm) : Instr := asmOri rt 0 value

end Sys2Proof
end

