-- ==== Sys2Proof/Machine/State.lean ====
section
/-! DEFINITION. The machine's state (spec/10_state.md rule R10) as plain data, what stops a step, and the state after reset (rule R24). -/

namespace Sys2Proof.Machine

/-- The memory collaborator's byte map (R30): the listed bytes, by address; every other address of the
2^32 reads `unlisted`. -/
abbrev Memory := List Host.Cell

/-- What an address that is not listed reads as (`MEM_INIT` is OPEN, R24).
DESIGN CHOICE (unsafe, notes/assumptions/5.md): 0, what spec/95_test_vectors.md part 3 starts from. -/
def Memory.unlisted : Byte := 0#8

/-- Canonical form from address `lo` on: addresses strictly rising and below 2^32, no entry equal to
what an unlisted address reads as. -/
def Memory.wfFrom : Nat → Memory → Bool
  | _, [] => true
  | lo, (a, v) :: m => lo ≤ a && a < 2 ^ 32 && v != Memory.unlisted && Memory.wfFrom (a + 1) m

/-- The memory is in its one canonical form. -/
def Memory.wf (m : Memory) : Bool := Memory.wfFrom 0 m

/-- A register and PC snapshot: registers 1 to 31 and the PC. Register 0 has no cell (R11, R15). -/
structure Snapshot where
  regs : Vector Word 31
  pc : Word
  deriving DecidableEq, Repr

/-- The state of R10, and the parameters of R6 that a run is under. -/
structure State where
  /-- `CUR`: the snapshot every read of the running instruction sees (R12, R16). -/
  cur : Snapshot
  /-- `NXT`: the snapshot every write goes to (R12, R15, R19). -/
  nxt : Snapshot
  /-- `RUN` (R20). -/
  run : Bool
  /-- `IW`, the instruction register (R22). -/
  iw : Word
  /-- `SEL`, the selected handler (R23). -/
  sel : Handler
  /-- The memory collaborator's bytes (R25, R30). -/
  mem : Memory
  /-- The named parameters of R6; the model's own field, which no step changes (notes/assumptions/1.md). -/
  config : Config
  deriving DecidableEq, Repr

/-- What stops the machine with a fault: nothing. "The hardware raises no synchronous exception, ever"
(R150), and an access outside the memory contract is refused (R36, R39), so no constructor exists. -/
inductive Fault where
  deriving DecidableEq, Repr

/-- What the model gives no meaning to. -/
inductive Refusal where
  /-- Raised by exec's arm of an instruction that has no meaning yet. Safe. -/
  | notModelled (mnemonic : String)
  /-- Raised by a word access (fetch, lw, lb, sw, sb) at a non-word-aligned address under
  `MISALIGNED = refuse` (R36). Safe: the model gives the access no meaning. -/
  | misalignedAddress (address : Word)
  /-- Raised by a word access (fetch, lw, lb, sw, sb) of which a byte lies outside a restricted
  `MEM_REGIONS`, which R39 treats like a misaligned one under `refuse` (name and per-byte reading:
  notes/assumptions/14.md). Safe: the model gives the access no meaning. -/
  | unbackedAddress (address : Word)
  deriving DecidableEq, Repr

/-- The snapshot after reset under a configuration (R24). -/
def Snapshot.atReset (c : Config) : Snapshot := { regs := c.resetRegs, pc := c.resetPc }

/-- The machine right after reset, nothing loaded (R24): PC and registers from the parameters, `RUN` 1.
`IW` and `SEL` are unspecified and `NXT` is recomputed each cycle: DESIGN CHOICE (notes/assumptions/4.md). -/
def State.reset : State where
  cur := Snapshot.atReset Config.chosen
  nxt := Snapshot.atReset Config.chosen
  run := true
  iw := 0#32
  sel := .halt
  mem := []
  config := Config.chosen

end Sys2Proof.Machine
end

