-- ==== Sys2Proof/Machine/Ops.lean ====
section
/-! DEFINITION. The named operations over registers, PC and memory that every meaning is written with (spec/00_scope.md rule R8), the stages of a cycle (spec/40_cycle_dispatch.md), the halt event, and reset. -/

namespace Sys2Proof.Machine

/-- Go on with a value, or stop where the first part stopped. -/
def andThen {α β : Type} (x : Host.Outcome α Fault Refusal)
    (k : α → Host.Outcome β Fault Refusal) : Host.Outcome β Fault Refusal :=
  match x with
  | .next a => k a
  | .fault f => .fault f
  | .refused r => .refused r

/-! ## Registers and the PC -/

/-- Guarded read of a snapshot: register 0 is 0 (R13). -/
def Snapshot.read (c : Snapshot) (i : RegIdx) : Word :=
  if h : i = 0#5 then 0#32
  else c.regs[i.toNat - 1]'(by
    have := i.isLt
    have : i.toNat ≠ 0 := fun e => h (BitVec.eq_of_toNat_eq e)
    omega)

/-- Guarded write of a snapshot: nothing for register 0 (R14). -/
def Snapshot.write (c : Snapshot) (i : RegIdx) (v : Word) : Snapshot :=
  if h : i = 0#5 then c
  else { c with regs := c.regs.set (i.toNat - 1) v (by
    have := i.isLt
    have : i.toNat ≠ 0 := fun e => h (BitVec.eq_of_toNat_eq e)
    omega) }

/-- `x[i]`: every read sees the current snapshot (R12, R13). -/
def State.x (s : State) (i : RegIdx) : Word := s.cur.read i

/-- `pc`, the address of the running instruction (R16). -/
def State.pc (s : State) : Word := s.cur.pc

/-- `x[i] <- v`: every write goes to the next snapshot (R12, R14). -/
def State.setX (s : State) (i : RegIdx) (v : Word) : State := { s with nxt := s.nxt.write i v }

/-- `pc <- t` (R17). -/
def State.setPc (s : State) (t : Word) : State := { s with nxt := { s.nxt with pc := t } }

/-- `advance_pc(d)`, modulo 2^32 (R18). -/
def State.advancePc (s : State) (d : Word) : State :=
  { s with nxt := { s.nxt with pc := s.nxt.pc + d } }

/-! ## Memory, byte by byte -/

/-- One byte: the listed value, or what an unlisted address reads as. -/
def Memory.read : Memory → Nat → Byte
  | [], _ => Memory.unlisted
  | (k, v) :: m, a => if k = a then v else Memory.read m a

/-- The memory without an entry for `a`. -/
def Memory.erase : Memory → Nat → Memory
  | [], _ => []
  | (k, v) :: m, a => if k = a then Memory.erase m a else (k, v) :: Memory.erase m a

/-- Put an entry before the first higher address. -/
def Memory.insert : Memory → Nat → Byte → Memory
  | [], a, v => [(a, v)]
  | (k, w) :: m, a, v => if a < k then (a, v) :: (k, w) :: m else (k, w) :: Memory.insert m a v

/-- Write one byte, keeping the canonical form: writing what an unlisted address reads as removes the
entry. -/
def Memory.write (m : Memory) (a : Nat) (v : Byte) : Memory :=
  if v = Memory.unlisted then Memory.erase m a else Memory.insert (Memory.erase m a) a v

/-- The byte at an address. -/
def State.byteAt (s : State) (a : Word) : Byte := s.mem.read a.toNat

/-- The word formed from the bytes at `a` to `a+3`, addresses modulo 2^32, in the byte order (R31, R33, R36). -/
def State.wordAt (s : State) (a : Word) : Word :=
  s.config.endian.join (s.byteAt a) (s.byteAt (a + 1#32)) (s.byteAt (a + 2#32)) (s.byteAt (a + 3#32))

/-- The memory with the bytes of `v` at `a` to `a+3`, addresses modulo 2^32 (R32, R33, R36). -/
def Memory.writeWord (e : Endian) (m : Memory) (a v : Word) : Memory :=
  (((m.write a.toNat (e.byteOf v 0)).write (a + 1#32).toNat (e.byteOf v 1)).write
    (a + 2#32).toNat (e.byteOf v 2)).write (a + 3#32).toNat (e.byteOf v 3)

/-! ## Memory, through the collaborator's two word primitives -/

/-- `a[1:0] == 0` (R31). -/
def wordAligned (a : Word) : Bool := a.extractLsb' 0 2 == 0#2

/-- The byte at `a` is backed by storage (R39). -/
def backs (c : Config) (a : Word) : Bool :=
  c.memRegions.any fun r => r.base ≤ a.toNat && a.toNat < r.base + r.size

/-- All four bytes of the word at `a` are backed (R39). -/
def backsWord (c : Config) (a : Word) : Bool :=
  backs c a && backs c (a + 1#32) && backs c (a + 2#32) && backs c (a + 3#32)

/-- The memory contract gives a word access at `a` a meaning (R35, R36, R39). -/
def admits (c : Config) (a : Word) : Bool :=
  (wordAligned a || c.misaligned == .leBytes) && backsWord c a

/-- The refusal of a word access at `a` outside the memory contract: by alignment under `refuse` (R36),
else because a byte is not backed, which R39 treats the same way. -/
def stopAt {α : Type} (c : Config) (a : Word) : Host.Outcome α Fault Refusal :=
  .refused (if !wordAligned a && c.misaligned == .refuse then .misalignedAddress a else .unbackedAddress a)

/-- `MemRead(a, 4)`: the address is presented unchanged; a read changes nothing (R31, R36). -/
def State.memRead (s : State) (a : Word) : Host.Outcome Word Fault Refusal :=
  if admits s.config a then .next (s.wordAt a) else stopAt s.config a

/-- `MemWrite(a, 4, v)` (R32, R36). -/
def State.memWrite (s : State) (a v : Word) : Host.Outcome State Fault Refusal :=
  if admits s.config a then
    .next { s with mem := Memory.writeWord s.config.endian s.mem a v }
  else stopAt s.config a

/-! ## The stages of a cycle -/

/-- What fetch leaves once the word is read: `IW`, and the staged next snapshot (R15, R19, R72). -/
def State.staged (s : State) (w : Word) : State :=
  { s with iw := w, nxt := { regs := s.cur.regs, pc := s.cur.pc + 4#32 } }

/-- Fetch: read the word at the PC, unchanged (R72). -/
def State.fetch (s : State) : Host.Outcome State Fault Refusal :=
  andThen (s.memRead s.cur.pc) fun w => .next (s.staged w)

/-- Decode: the arbiter writes `SEL` from `IW` (R76). -/
def State.select (s : State) : State := { s with sel := arbiter s.config.table s.iw }

/-- The instruction that execute runs: `IW` through the format of `SEL` (R54, R78). -/
def State.instr (s : State) : Instr := s.sel.view s.iw

/-- Commit: the next snapshot becomes the current one (R81). -/
def State.commit (s : State) : State := { s with cur := s.nxt }

/-! ## The halt event (R153)

The hardware has no exception, so there is no exception entry and no return from one (R150, R154). The
halt event is what stands in their place: it clears `RUN`, saves nothing, changes no mode and goes
nowhere; the staged PC is committed like any other. -/

def State.haltEvent (s : State) : State := { s with run := false }

/-! ## Reset and loading -/

/-- Reset asserted at a clock edge: every state element loads its value of R24; memory and the
parameters are untouched (R170, R171). `IW`, `SEL`, `NXT`: as `State.reset` (notes/assumptions/4.md). -/
def State.assertReset (s : State) : State :=
  { s with
    cur := Snapshot.atReset s.config
    nxt := Snapshot.atReset s.config
    run := true
    iw := State.reset.iw
    sel := State.reset.sel }

/-- The loader places one word (R174). -/
def State.placeWord (s : State) (a w : Word) : State :=
  { s with mem := Memory.writeWord s.config.endian s.mem a w }

/-- The loader places a list of words from `a` on (R174). -/
def State.placeWords (s : State) (a : Word) : List Word → State
  | [] => s
  | w :: ws => (s.placeWord a w).placeWords (a + 4#32) ws

/-- The loader places a program at `RESET_PC` (R174). -/
def State.loadProgram (s : State) (ws : List Word) : State := s.placeWords s.config.resetPc ws

end Sys2Proof.Machine
end

