-- ==== Sys2Proof/Machine/Operands.lean ====
section
/-! DEFINITION. How an instruction's raw fields become operands (spec/30_encoding.md rule R59), and the ALU functions (spec/40_cycle_dispatch.md rule R80). -/

namespace Sys2Proof.Machine

/-- `sext_32` of a 16-bit value (R8). -/
def sext32 (v : Imm) : Word := v.signExtend 32

/-- `zext_32` of a 16-bit value (R8). -/
def zext32 (v : Imm) : Word := v.zeroExtend 32

/-- `zext_32` of a 26-bit value (R8). -/
def zext32J (v : JumpAddr) : Word := v.zeroExtend 32

/-- `lui`: the immediate in the upper half (R59, R100). -/
def upperImm (imm : Imm) : Word := zext32 imm <<< 16

/-- The offset a taken branch adds to the staged PC: in words, minus one, times 4 (R59, R123). -/
def branchOffset (imm : Imm) : Word := (sext32 imm - 1#32) <<< 2

/-- The target of `j` and `jal`: the upper 4 bits come from the jump's own address (R59, R130). -/
def jumpTarget (pc : Word) (address : JumpAddr) : Word :=
  (pc &&& 0xF0000000#32) ||| (zext32J address <<< 2)

/-- `sb`: the word with its low byte replaced (R113). -/
def mergeLowByte (w v : Word) : Word := (w &&& 0xFFFFFF00#32) ||| (v &&& 0x000000FF#32)

/-- `lb`: the low byte, zero-extended (R112). -/
def lowByte (w : Word) : Word := w &&& 0x000000FF#32

/-- A comparison's result as a word (R80, R104). -/
def boolWord (b : Bool) : Word := if b then 1#32 else 0#32

/-- The six ALU functions (R80). -/
inductive AluFn where
  | add | sub | or | shl16 | sltu | eq
  deriving DecidableEq, Repr

/-- The ALU: combinational, no flag outputs (R80). -/
def alu (f : AluFn) (a b : Word) : Word :=
  match f with
  | .add => a + b
  | .sub => a - b
  | .or => a ||| b
  | .shl16 => b <<< 16
  | .sltu => boolWord (a.ult b)
  | .eq => boolWord (a == b)

end Sys2Proof.Machine
end

