-- ==== Sys2Proof/Machine/Flags.lean ====
section
/-! DEFINITION. Flags. The hardware has no condition codes and its ALU no flag outputs (spec/10_state.md rule R21); its only status bit is `RUN` (rule R20). -/

namespace Sys2Proof.Machine

/-- `RUN <- 0`, all that an instruction can do to the one status bit (R20, R155). -/
def State.clearRun (s : State) : State := s.haltEvent

end Sys2Proof.Machine
end

