-- ==== Sys2Proof/Machine/Branch.lean ====
section
/-! DEFINITION. The conditional branches: beq, bne, bgtz (spec/44_branch.md). The target is computed as rule R123 says: the offset is added to the staged `pc + 4`. -/

namespace Sys2Proof.Machine

/-- A branch taken when `taken` holds (R123). -/
def branchIf (taken : Bool) (imm : Imm) (s : State) : State :=
  if taken then s.advancePc (branchOffset imm) else s

/-- R120. -/
def execBeq (rs rt : RegIdx) (imm : Imm) (s : State) : Host.Outcome State Fault Refusal :=
  .next (branchIf (s.x rs == s.x rt) imm s)

/-- R121. -/
def execBne (rs rt : RegIdx) (imm : Imm) (s : State) : Host.Outcome State Fault Refusal :=
  .next (branchIf (s.x rs != s.x rt) imm s)

/-- R122. Unsigned greater than zero, that is not zero: the spec preserves this deviation. -/
def execBgtz (rs _rt : RegIdx) (imm : Imm) (s : State) : Host.Outcome State Fault Refusal :=
  .next (branchIf (s.x rs != 0#32) imm s)

end Sys2Proof.Machine
end

