-- ==== Sys2Proof/Machine/ImmediateAlu.lean ====
section
/-! DEFINITION. The immediate-format ALU instructions: lui, ori, addi, addiu, slti (spec/42_immediate_alu.md). -/

namespace Sys2Proof.Machine

/-- R100. -/
def execLui (_rs rt : RegIdx) (imm : Imm) (s : State) : Host.Outcome State Fault Refusal :=
  .next (s.setX rt (upperImm imm))

/-- R101. -/
def execOri (rs rt : RegIdx) (imm : Imm) (s : State) : Host.Outcome State Fault Refusal :=
  .next (s.setX rt (s.x rs ||| zext32 imm))

/-- R102. -/
def execAddi (rs rt : RegIdx) (imm : Imm) (s : State) : Host.Outcome State Fault Refusal :=
  .next (s.setX rt (s.x rs + sext32 imm))

/-- R103. A bitwise OR with the zero-extended immediate, not an addition: the spec preserves this deviation. -/
def execAddiu (rs rt : RegIdx) (imm : Imm) (s : State) : Host.Outcome State Fault Refusal :=
  .next (s.setX rt (s.x rs ||| zext32 imm))

/-- R104. An unsigned comparison with the zero-extended immediate: the spec preserves this deviation. -/
def execSlti (rs rt : RegIdx) (imm : Imm) (s : State) : Host.Outcome State Fault Refusal :=
  .next (s.setX rt (boolWord ((s.x rs).ult (zext32 imm))))

end Sys2Proof.Machine
end

