-- ==== Sys2Proof/Machine/Jump.lean ====
section
/-! DEFINITION. The jumps: j, jal (spec/45_jump.md). -/

namespace Sys2Proof.Machine

/-- R130. -/
def execJ (address : JumpAddr) (s : State) : Host.Outcome State Fault Refusal :=
  .next (s.setPc (jumpTarget s.pc address))

/-- R131. Link `pc + 4` in register 31, then the same jump. -/
def execJal (address : JumpAddr) (s : State) : Host.Outcome State Fault Refusal :=
  .next ((s.setX 31#5 (s.pc + 4#32)).setPc (jumpTarget s.pc address))

end Sys2Proof.Machine
end

