-- ==== Sys2Proof/Machine/LoadStore.lean ====
section
/-! DEFINITION. Loads and stores: lw, sw, lb, sb (spec/43_load_store.md). The effective address is `x[rs]`; the immediate is not added (rule R114). -/

namespace Sys2Proof.Machine

/-- R110. The read is made for `rt = 0` too. -/
def execLw (rs rt : RegIdx) (_imm : Imm) (s : State) : Host.Outcome State Fault Refusal :=
  andThen (s.memRead (s.x rs)) fun w => .next (s.setX rt w)

/-- R111. -/
def execSw (rs rt : RegIdx) (_imm : Imm) (s : State) : Host.Outcome State Fault Refusal :=
  s.memWrite (s.x rs) (s.x rt)

/-- R112. Zero-extended: the spec keeps this against the conventional sign extension. -/
def execLb (rs rt : RegIdx) (_imm : Imm) (s : State) : Host.Outcome State Fault Refusal :=
  andThen (s.memRead (s.x rs)) fun w => .next (s.setX rt (lowByte w))

/-- R113. One 32-bit read, then one 32-bit write at the same address (R37). -/
def execSb (rs rt : RegIdx) (_imm : Imm) (s : State) : Host.Outcome State Fault Refusal :=
  andThen (s.memRead (s.x rs)) fun w => s.memWrite (s.x rs) (mergeLowByte w (s.x rt))

end Sys2Proof.Machine
end

