-- ==== Sys2Proof/Machine/RegisterFormat.lean ====
section
/-! DEFINITION. The register-format instructions: add, addu, sub, subu, jr (spec/41_register_format.md). -/

namespace Sys2Proof.Machine

/-- R90. The sum wraps; no overflow trap. -/
def execAdd (rs rt rd : RegIdx) (_shamt : Shamt) (s : State) : Host.Outcome State Fault Refusal :=
  .next (s.setX rd (s.x rs + s.x rt))

/-- R91. -/
def execAddu (rs rt rd : RegIdx) (_shamt : Shamt) (s : State) : Host.Outcome State Fault Refusal :=
  .next (s.setX rd (s.x rs + s.x rt))

/-- R92. -/
def execSub (rs rt rd : RegIdx) (_shamt : Shamt) (s : State) : Host.Outcome State Fault Refusal :=
  .next (s.setX rd (s.x rs - s.x rt))

/-- R93. -/
def execSubu (rs rt rd : RegIdx) (_shamt : Shamt) (s : State) : Host.Outcome State Fault Refusal :=
  .next (s.setX rd (s.x rs - s.x rt))

/-- R94. All 32 bits of the target are taken; it is not checked. -/
def execJr (rs _rt _rd : RegIdx) (_shamt : Shamt) (s : State) : Host.Outcome State Fault Refusal :=
  .next (s.setPc (s.x rs))

end Sys2Proof.Machine
end

