-- ==== Sys2Proof/Machine/System.lean ====
section
/-! DEFINITION. The `li` pseudo entry and the `halt` fallback (spec/46_pseudo_halt.md). -/

namespace Sys2Proof.Machine

/-- R140. No state change; the staged `pc + 4` stays. -/
def execLi (_word : Word) (s : State) : Host.Outcome State Fault Refusal :=
  .next s

/-- R141. `RUN <- 0`; no register, no memory; the staged `pc + 4` stays. -/
def execHalt (_word : Word) (s : State) : Host.Outcome State Fault Refusal :=
  .next s.clearRun

end Sys2Proof.Machine
end

