-- ==== Sys2Proof/Machine/Step.lean ====
section
/-! DEFINITION. One cycle: fetch, decode, execute, commit (spec/40_cycle_dispatch.md rules R70, R71, R82), and the clock edge with reset (spec/70_reset_and_hazards.md rule R170). -/

namespace Sys2Proof.Machine

/-- One clock period with reset low: a cycle while `RUN` is 1, nothing while it is 0 (R71, R82, R156). -/
def step (s : State) : Host.Outcome State Fault Refusal :=
  if s.run then
    andThen s.fetch fun f =>
      andThen (exec f.select.instr f.select) fun t => .next t.commit
  else .next s

/-- One clock period: reset has priority, and the cycle's results are dropped (R71, R170). -/
def clockEdge (rst : Bool) (s : State) : Host.Outcome State Fault Refusal :=
  if rst then .next s.assertReset else step s

/-- The state with the word whose bits are `w` stored at the PC and `RUN` set, so that the next step
fetches and runs it. This stands for the external loader (R174; notes/assumptions/10.md). -/
def State.withFetchWord (s : State) (nbits w : Nat) : State :=
  { s.placeWord s.cur.pc (BitVec.ofNat 32 (w % 2 ^ nbits)) with run := true }

end Sys2Proof.Machine
end

