-- ==== Sys2Proof/Machine/Datapath.lean ====
section
/-! DEFINITION. The single-cycle datapath: the decoder's control outputs as spec/40_cycle_dispatch.md rule R79 tabulates them, and what they make the datapath do. It is a second description of the handlers ("it adds nothing to the instruction rules"); `step` does not use it. -/

namespace Sys2Proof.Machine

/-- ALU input A: absent or `x[rs]` (R79). -/
inductive SrcA where
  | none | rs
  deriving DecidableEq, Repr

/-- ALU input B: absent, `x[rt]`, the extended immediate, or 0 (R79). -/
inductive SrcB where
  | none | rt | zext | sext | zero
  deriving DecidableEq, Repr

/-- Which register is written (R79). -/
inductive DestSel where
  | rd | rt | ra
  deriving DecidableEq, Repr

/-- What is written to it: `Y`, `D`, `D & 0xFF` or `pc+4` (R79). -/
inductive ResultSel where
  | y | d | dLow | link
  deriving DecidableEq, Repr

/-- What is written to memory: `x[rt]`, or the data read with its low byte replaced (R79). -/
inductive StoreSel where
  | rt | merged
  deriving DecidableEq, Repr

/-- `NXT.PC`: `pc+4`, `x[rs]`, `BR` on `Y = 1` or on `Y = 0`, or `T` (R79). -/
inductive NextPcSel where
  | plus4 | rs | branchIfY | branchUnlessY | target
  deriving DecidableEq, Repr

/-- One row of the control table (R79). -/
structure Control where
  a : SrcA := .none
  b : SrcB := .none
  fn : Option AluFn := none
  regWrite : Option (DestSel × ResultSel) := none
  memRead : Bool := false
  memWrite : Option StoreSel := none
  nextPc : NextPcSel := .plus4
  clearRun : Bool := false
  deriving DecidableEq, Repr

/-- The control table (R79). -/
def controlRow : Handler → Control
  | .add => { a := .rs, b := .rt, fn := some .add, regWrite := some (.rd, .y) }
  | .addu => { a := .rs, b := .rt, fn := some .add, regWrite := some (.rd, .y) }
  | .sub => { a := .rs, b := .rt, fn := some .sub, regWrite := some (.rd, .y) }
  | .subu => { a := .rs, b := .rt, fn := some .sub, regWrite := some (.rd, .y) }
  | .jr => { nextPc := .rs }
  | .lui => { b := .zext, fn := some .shl16, regWrite := some (.rt, .y) }
  | .ori => { a := .rs, b := .zext, fn := some .or, regWrite := some (.rt, .y) }
  | .addi => { a := .rs, b := .sext, fn := some .add, regWrite := some (.rt, .y) }
  | .addiu => { a := .rs, b := .zext, fn := some .or, regWrite := some (.rt, .y) }
  | .slti => { a := .rs, b := .zext, fn := some .sltu, regWrite := some (.rt, .y) }
  | .lw => { regWrite := some (.rt, .d), memRead := true }
  | .lb => { regWrite := some (.rt, .dLow), memRead := true }
  | .sw => { memWrite := some .rt }
  | .sb => { memRead := true, memWrite := some .merged }
  | .beq => { a := .rs, b := .rt, fn := some .eq, nextPc := .branchIfY }
  | .bne => { a := .rs, b := .rt, fn := some .eq, nextPc := .branchUnlessY }
  | .bgtz => { a := .rs, b := .zero, fn := some .eq, nextPc := .branchUnlessY }
  | .j => { nextPc := .target }
  | .jal => { regWrite := some (.ra, .link), nextPc := .target }
  | .li => {}
  | .halt => { clearRun := true }

/-- The ALU's input A; an input the row leaves out carries 0 and is not used. -/
def inputA (c : Control) (s : State) : Word :=
  match c.a with
  | .none => 0#32
  | .rs => s.x (rsOf s.iw)

/-- The ALU's input B. -/
def inputB (c : Control) (s : State) : Word :=
  match c.b with
  | .none => 0#32
  | .rt => s.x (rtOf s.iw)
  | .zext => zext32 (immOf s.iw)
  | .sext => sext32 (immOf s.iw)
  | .zero => 0#32

/-- The ALU's output `Y`; 0 where the row uses no ALU function. -/
def outputY (c : Control) (s : State) : Word :=
  match c.fn with
  | none => 0#32
  | some f => alu f (inputA c s) (inputB c s)

/-- The register number written. -/
def destReg (d : DestSel) (s : State) : RegIdx :=
  match d with
  | .rd => rdOf s.iw
  | .rt => rtOf s.iw
  | .ra => 31#5

/-- The value written to it, `d` being the data read. -/
def resultValue (r : ResultSel) (y d : Word) (s : State) : Word :=
  match r with
  | .y => y
  | .d => d
  | .dLow => d &&& 0x000000FF#32
  | .link => s.pc + 4#32

/-- The value on the data write port, `d` being the data read. -/
def storeValue (m : StoreSel) (d : Word) (s : State) : Word :=
  match m with
  | .rt => s.x (rtOf s.iw)
  | .merged => (d &&& 0xFFFFFF00#32) ||| (s.x (rtOf s.iw) &&& 0x000000FF#32)

/-- `BR`, with `NXT.PC = pc + 4` (R79). -/
def branchTarget (s : State) : Word := (s.pc + 4#32) + ((sext32 (immOf s.iw) - 1#32) <<< 2)

/-- The next PC the row selects. -/
def nextPcValue (n : NextPcSel) (y : Word) (s : State) : Word :=
  match n with
  | .plus4 => s.pc + 4#32
  | .rs => s.x (rsOf s.iw)
  | .branchIfY => if y == 1#32 then branchTarget s else s.pc + 4#32
  | .branchUnlessY => if y == 0#32 then branchTarget s else s.pc + 4#32
  | .target => (s.pc &&& 0xF0000000#32) ||| (zext32J (addressOf s.iw) <<< 2)

/-- The register write, through the guard of R14. -/
def writeBack (c : Control) (y d : Word) (s : State) : State :=
  match c.regWrite with
  | none => s
  | some (dest, r) => s.setX (destReg dest s) (resultValue r y d s)

/-- What the datapath does in the execute phase under a control row: data read, data write, register
write, next PC, `RUN`. -/
def datapath (c : Control) (s : State) : Host.Outcome State Fault Refusal :=
  let y := outputY c s
  let go (d : Word) : Host.Outcome State Fault Refusal :=
    andThen
      (match c.memWrite with
        | none => .next s
        | some m => s.memWrite (s.x (rsOf s.iw)) (storeValue m d s))
      fun t =>
        let t := (writeBack c y d t).setPc (nextPcValue c.nextPc y s)
        .next (if c.clearRun then t.clearRun else t)
  if c.memRead then andThen (s.memRead (s.x (rsOf s.iw))) go else go 0#32

/-- The cycle with the datapath in place of the handlers. -/
def datapathStep (s : State) : Host.Outcome State Fault Refusal :=
  if s.run then
    andThen s.fetch fun f =>
      andThen (datapath (controlRow f.select.sel) f.select) fun t => .next t.commit
  else .next s

end Sys2Proof.Machine
end

