-- ==== Sys2Proof/Machine/Ports.lean ====
section
/-! DEFINITION. The block's ports (spec/40_cycle_dispatch.md rule R84) as functions of the state and the read data, and the memory accesses of a cycle in order (spec/20_memory.md rule R37). `step` does not use them. -/

namespace Sys2Proof.Machine

/-- The output ports of R84; `imem_rdata` and `dmem_rdata` are inputs. -/
structure Ports where
  imemAddr : Word
  dmemAddr : Word
  dmemRe : Bool
  dmemWe : Bool
  dmemWdata : Word
  run : Bool
  deriving DecidableEq, Repr

/-- The combinational outputs during a cycle. While `RUN` is 0 no access is made (R71). The value of
`dmem_wdata` where `dmem_we` is 0 is not used. -/
def ports (s : State) (imemRdata dmemRdata : Word) : Ports :=
  let c := controlRow (arbiter s.config.table imemRdata)
  let f := s.staged imemRdata
  { imemAddr := s.cur.pc
    dmemAddr := s.x (rsOf imemRdata)
    dmemRe := s.run && c.memRead
    dmemWe := s.run && c.memWrite.isSome
    dmemWdata := (c.memWrite.map fun m => storeValue m dmemRdata f).getD 0#32
    run := s.run }

/-- One access on the memory interface (R37). -/
inductive BusAccess where
  | read (address : Word)
  | write (address value : Word)
  deriving DecidableEq, Repr

/-- The accesses of the next cycle, in order: fetch read, data read, data write (R37); none while `RUN`
is 0 (R71). Each read returns the word the memory holds at the address presented. -/
def busTrace (s : State) : List BusAccess :=
  if s.run then
    let imem := s.wordAt s.cur.pc
    let dmem := s.wordAt (s.x (rsOf imem))
    let p := ports s imem dmem
    .read p.imemAddr ::
      ((if p.dmemRe then [.read p.dmemAddr] else []) ++
        (if p.dmemWe then [.write p.dmemAddr p.dmemWdata] else []))
  else []

end Sys2Proof.Machine
end

