-- ==== Sys2Proof/Safety.lean ====
section
/-! DEFINITION. The terms the statements are written in: what an instruction's own effect leaves unchanged, which registers a handler may write (spec/10_state.md rule R15), the memory contract of a cycle (spec/40_cycle_dispatch.md rule R82), and the invariant. -/

namespace Sys2Proof.Machine

/-! ## Frames of execute

Execute reads `CUR` and writes `NXT`, memory and `RUN` (R70, R78). -/

/-- What no handler changes: the current snapshot, `IW`, `SEL` and the parameters. -/
def KeepsInputs (s t : State) : Prop :=
  t.cur = s.cur ∧ t.iw = s.iw ∧ t.sel = s.sel ∧ t.config = s.config

/-- Every byte of memory reads as before. -/
def KeepsMemory (s t : State) : Prop := ∀ a, t.byteAt a = s.byteAt a

/-- Every register of the next snapshot reads as before. -/
def KeepsRegs (s t : State) : Prop := ∀ q, t.nxt.read q = s.nxt.read q

/-- `t` is `s` with `v` written to register `r` of the next snapshot (nothing, for register 0), and
nothing else. -/
def WritesReg (s t : State) (r : RegIdx) (v : Word) : Prop :=
  (∀ q, t.nxt.read q = if q = r ∧ r ≠ 0#5 then v else s.nxt.read q) ∧
    t.nxt.pc = s.nxt.pc ∧ t.run = s.run ∧ KeepsMemory s t ∧ KeepsInputs s t

/-- `t` is `s` with `p` as the next PC, and nothing else. -/
def SetsPc (s t : State) (p : Word) : Prop :=
  t.nxt.pc = p ∧ KeepsRegs s t ∧ t.run = s.run ∧ KeepsMemory s t ∧ KeepsInputs s t

/-- `t` is `s` with the word `v` stored at `a` to `a+3` (modulo 2^32), and nothing else. -/
def StoresWord (s t : State) (a v : Word) : Prop :=
  (∀ k < 4, t.byteAt (a + BitVec.ofNat 32 k) = s.config.endian.byteOf v k) ∧
    (∀ b, (∀ k < 4, b ≠ a + BitVec.ofNat 32 k) → t.byteAt b = s.byteAt b) ∧
    KeepsRegs s t ∧ t.nxt.pc = s.nxt.pc ∧ t.run = s.run ∧ KeepsInputs s t

/-! ## Encodings -/

/-- Every word whose bits under `mask` are `pattern` decodes to what `view` reads from it, under the chosen
table (R55, R56). -/
def EncodedBy (pattern mask : Word) (view : Word → Instr) : Prop :=
  ∀ w, w &&& mask = pattern → decode w = view w

/-! ## What a handler may write (the table of R15) -/

/-- The register an instruction writes. -/
def destOf : Instr → Option RegIdx
  | .add _ _ rd _ => some rd
  | .addu _ _ rd _ => some rd
  | .sub _ _ rd _ => some rd
  | .subu _ _ rd _ => some rd
  | .jr _ _ _ _ => none
  | .lui _ rt _ => some rt
  | .ori _ rt _ => some rt
  | .addi _ rt _ => some rt
  | .addiu _ rt _ => some rt
  | .lw _ rt _ => some rt
  | .sw _ _ _ => none
  | .bne _ _ _ => none
  | .beq _ _ _ => none
  | .bgtz _ _ _ => none
  | .slti _ rt _ => some rt
  | .sb _ _ _ => none
  | .lb _ rt _ => some rt
  | .j _ => none
  | .jal _ => some 31#5
  | .li _ => none
  | .halt _ => none

/-- The register that holds the data address of a load or store (R114). -/
def dataBase : Instr → Option RegIdx
  | .lw rs _ _ => some rs
  | .sw rs _ _ => some rs
  | .lb rs _ _ => some rs
  | .sb rs _ _ => some rs
  | _ => none

/-- The instruction stores to memory (R37). -/
def isStore (i : Instr) : Bool := i.handler == .sw || i.handler == .sb

/-- The next PC an instruction gives, from the current state alone: `pc + 4` but for a taken branch,
`jr`, `j` and `jal` (R19, R94, R123, R130, R131). -/
def nextPcOf (s : State) : Instr → Word
  | .jr rs _ _ _ => s.x rs
  | .beq rs rt imm => if s.x rs = s.x rt then s.cur.pc + 4#32 * imm.signExtend 32 else s.cur.pc + 4#32
  | .bne rs rt imm => if s.x rs = s.x rt then s.cur.pc + 4#32 else s.cur.pc + 4#32 * imm.signExtend 32
  | .bgtz rs _ imm => if s.x rs = 0#32 then s.cur.pc + 4#32 else s.cur.pc + 4#32 * imm.signExtend 32
  | .j address => s.cur.pc.extractLsb' 28 4 ++ address ++ 0#2
  | .jal address => s.cur.pc.extractLsb' 28 4 ++ address ++ 0#2
  | _ => s.cur.pc + 4#32

/-! ## The cycle's word, its instruction, its memory contract -/

/-- The word the next cycle fetches, where fetch is inside the contract. -/
def fetchedWord (s : State) : Word := s.wordAt s.cur.pc

/-- The instruction the next cycle runs. -/
def nextInstr (s : State) : Instr := decodeWith s.config (fetchedWord s)

/-- Every address the next cycle presents is inside the memory contract (R82). -/
def InContract (s : State) : Prop :=
  admits s.config s.cur.pc = true ∧
    ∀ rs, dataBase (nextInstr s) = some rs → admits s.config (s.x rs) = true

/-- Every address the next cycle presents is word-aligned (R35). -/
def AlignedCycle (s : State) : Prop :=
  wordAligned s.cur.pc = true ∧
    ∀ rs, dataBase (nextInstr s) = some rs → wordAligned (s.x rs) = true

/-! ## The invariant -/

/-- At a cycle boundary: the memory is in its canonical form, the parameters are well formed, and the
next snapshot agrees with the current one (R15). -/
structure State.Inv (s : State) : Prop where
  mem : s.mem.wf = true
  config : s.config.wf = true
  agree : s.nxt = s.cur

/-! ## Two byte orders (R34) -/

/-- Two states alike to every word-aligned access, whatever their byte orders. -/
structure SameWords (s t : State) : Prop where
  cur : t.cur = s.cur
  nxt : t.nxt = s.nxt
  run : t.run = s.run
  iw : t.iw = s.iw
  sel : t.sel = s.sel
  config : { t.config with endian := s.config.endian } = s.config
  words : ∀ a, wordAligned a = true → t.wordAt a = s.wordAt a

/-! ## The bus (R37) -/

/-- The write of an access applied to the memory; a read changes nothing. -/
def applyAccess (e : Endian) (m : Memory) : BusAccess → Memory
  | .read _ => m
  | .write a v => m.writeWord e a v

def BusAccess.isWrite : BusAccess → Bool
  | .read _ => false
  | .write _ _ => true

end Sys2Proof.Machine
end

