-- ==== Sys2Proof/Certificates/Slice0/Obligations.lean ====
section
/-! DEFINITION. The statements for the provers. `exec` acts on a state that fetch and decode have prepared: it reads `CUR`, writes `NXT`; the step commits. A per-instruction statement begins with the encoding its rule gives (pattern and mask of R55, whose numbers are the spec's decision D1, notes/assumptions/6.md), then says what `exec` answers for every state and operands. -/

open Sys2Proof Sys2Proof.Machine

/-! ## Encoding and dispatch -/

/-- Words written out from R51 to R53 and the numbers of R55 (decision D1) decode to what they stand for. -/
def Obligations.WrittenWordsDecode : Prop :=
  decode 0x012A4020 = .add 9 10 8 0 ∧ decode 0x03E00008 = .jr 31 0 0 0 ∧
    decode 0x350900F0 = .ori 8 9 0x00F0 ∧ decode 0x8D0B0008 = .lw 8 11 8 ∧
    decode 0x1420FFFE = .bne 1 0 0xFFFE ∧ decode 0x0C100004 = .jal 0x0100004 ∧
    decode 0 = .halt 0

/-- Under the numbers of R55 and any disjoint `li` entry, decoding an encoded well-formed instruction
gives it back, ignored fields included. -/
def Obligations.DecodeOfEncodeIsIdentity : Prop :=
  ∀ c : Config, c.enc = specEnc → c.wf = true →
    ∀ i : Instr, i.wf c.liEntry = true → decodeWith c (encode i) = i

/-- Under the numbers of R55 and any `li` entry at all, every word is the encoding of the instruction it
decodes to, which is well formed. -/
def Obligations.EncodeOfDecodeIsIdentity : Prop :=
  ∀ c : Config, c.enc = specEnc →
    ∀ w : Word, encode (decodeWith c w) = w ∧ (decodeWith c w).wf c.liEntry = true

/-- The words that select `halt` under the chosen table are the ones R61 lists by opcode and funct. -/
def Obligations.UnmatchedWordsAreTheListedOnes : Prop :=
  ∀ w : Word, decode w = .halt w ↔
    (opcodeOf w = 0#6 ∧ functOf w ∉ ([0x08, 0x20, 0x21, 0x22, 0x23] : List (BitVec 6))) ∨
    opcodeOf w ∉ ([0x00, 0x02, 0x03, 0x04, 0x05, 0x07, 0x08, 0x09, 0x0A, 0x0D, 0x0F, 0x20, 0x23, 0x28,
      0x2B] : List (BitVec 6))

/-- R76: the arbiter selects the handler of the last matching entry, and `halt` where none matches. -/
def Obligations.ArbiterSelectsLastMatch : Prop :=
  ∀ (table : List Entry) (w : Word),
    ((∀ e ∈ table, e.key.hits w = false) → arbiter table w = .halt) ∧
    ∀ front e back, table = front ++ e :: back → e.key.hits w = true →
      (∀ e' ∈ back, e'.key.hits w = false) → arbiter table w = e.handler

/-- R75: under a well-formed configuration a word sets at most one bit of the match vector; the chosen
configuration is one. -/
def Obligations.MatchVectorHasAtMostOneBit : Prop :=
  Config.chosen.wf = true ∧
    ∀ c : Config, c.wf = true → ∀ w : Word, (matchVector c.table w).count true ≤ 1

/-- R77: a word that matches an entry, its pattern fetched verbatim among them, is routed to that entry's
handler and no other, under every well-formed configuration. -/
def Obligations.DispatchIsComplete : Prop :=
  ∀ c : Config, c.wf = true → ∀ e ∈ c.table,
    e.key.hits e.key.pattern = true ∧
      ∀ w : Word, e.key.hits w = true → arbiter c.table w = e.handler

/-- R58: a word of the `li` entry decodes to `li` even if it matches another entry, and every other word
decodes as without the entry. -/
def Obligations.LiEntryWinsOnItsWords : Prop :=
  ∀ (c : Config) (m : MaskMatch), c.liEntry = some m → ∀ w : Word,
    (m.hits w = true → decodeWith c w = .li w) ∧
    (m.hits w = false → decodeWith c w = decodeWith { c with liEntry := none } w)

/-! ## Registers and the PC -/

/-- R13, R14: register 0 reads 0 and a write to it does nothing; a write to another register is seen
after the commit and by no read before it; every other register is unchanged. -/
def Obligations.GuardedRegisterAccess : Prop :=
  ∀ (s : State) (i : RegIdx) (v : Word),
    s.x 0#5 = 0#32 ∧ s.setX 0#5 v = s ∧ (∀ q, (s.setX i v).x q = s.x q) ∧
      (i ≠ 0#5 → (s.setX i v).commit.x i = v) ∧
      ∀ q, q ≠ i → (s.setX i v).commit.x q = s.commit.x q

/-- R17, R18: `pc <- t` replaces the staged value, `advance_pc(d)` adds to it modulo 2^32; `CUR` and the
registers stay. -/
def Obligations.NextPcOperations : Prop :=
  ∀ (s : State) (t d : Word),
    SetsPc s (s.setPc t) t ∧ SetsPc s (s.advancePc d) (s.nxt.pc + d)

/-! ## Execute, per instruction: completion, result and frame -/

/-- R90, R91: `add` and `addu` write the wrapped sum of the current values, for every `shamt`. -/
def Obligations.AddWritesWrappedSum : Prop :=
  (EncodedBy 0x00000020 0xFC00003F fun w => .add (rsOf w) (rtOf w) (rdOf w) (shamtOf w)) ∧
  (EncodedBy 0x00000021 0xFC00003F fun w => .addu (rsOf w) (rtOf w) (rdOf w) (shamtOf w)) ∧
  ∀ (rs rt rd : RegIdx) (shamt : Shamt) (s : State),
    (∃ t, exec (.add rs rt rd shamt) s = .next t ∧
      WritesReg s t rd (BitVec.ofNat 32 ((s.x rs).toNat + (s.x rt).toNat))) ∧
    (∃ t, exec (.addu rs rt rd shamt) s = .next t ∧
      WritesReg s t rd (BitVec.ofNat 32 ((s.x rs).toNat + (s.x rt).toNat)))

/-- R92, R93: `sub` and `subu` write the wrapped difference. -/
def Obligations.SubWritesWrappedDifference : Prop :=
  (EncodedBy 0x00000022 0xFC00003F fun w => .sub (rsOf w) (rtOf w) (rdOf w) (shamtOf w)) ∧
  (EncodedBy 0x00000023 0xFC00003F fun w => .subu (rsOf w) (rtOf w) (rdOf w) (shamtOf w)) ∧
  ∀ (rs rt rd : RegIdx) (shamt : Shamt) (s : State),
    (∃ t, exec (.sub rs rt rd shamt) s = .next t ∧
      WritesReg s t rd (BitVec.ofInt 32 ((s.x rs).toNat - (s.x rt).toNat : Int))) ∧
    (∃ t, exec (.subu rs rt rd shamt) s = .next t ∧
      WritesReg s t rd (BitVec.ofInt 32 ((s.x rs).toNat - (s.x rt).toNat : Int)))

/-- R94: `jr` makes all 32 bits of `x[rs]` the next PC, whatever its other fields. -/
def Obligations.JrSetsNextPc : Prop :=
  (EncodedBy 0x00000008 0xFC00003F fun w => .jr (rsOf w) (rtOf w) (rdOf w) (shamtOf w)) ∧
  ∀ (rs rt rd : RegIdx) (shamt : Shamt) (s : State),
    ∃ t, exec (.jr rs rt rd shamt) s = .next t ∧ SetsPc s t (s.x rs)

/-- R100: `lui` loads the immediate into bits 31:16 and zeros into bits 15:0. -/
def Obligations.LuiLoadsUpperHalf : Prop :=
  (EncodedBy 0x3C000000 0xFC000000 fun w => .lui (rsOf w) (rtOf w) (immOf w)) ∧
  ∀ (rs rt : RegIdx) (imm : Imm) (s : State),
    ∃ t, exec (.lui rs rt imm) s = .next t ∧ WritesReg s t rt (imm ++ 0#16)

/-- R101: `ori` ORs with the zero-extended immediate: bits 31:16 pass through. -/
def Obligations.OriOrsZeroExtended : Prop :=
  (EncodedBy 0x34000000 0xFC000000 fun w => .ori (rsOf w) (rtOf w) (immOf w)) ∧
  ∀ (rs rt : RegIdx) (imm : Imm) (s : State),
    ∃ t, exec (.ori rs rt imm) s = .next t ∧
      WritesReg s t rt ((s.x rs).extractLsb' 16 16 ++ ((s.x rs).extractLsb' 0 16 ||| imm))

/-- R102: `addi` adds the sign-extended immediate modulo 2^32. -/
def Obligations.AddiAddsSignExtended : Prop :=
  (EncodedBy 0x20000000 0xFC000000 fun w => .addi (rsOf w) (rtOf w) (immOf w)) ∧
  ∀ (rs rt : RegIdx) (imm : Imm) (s : State),
    ∃ t, exec (.addi rs rt imm) s = .next t ∧
      WritesReg s t rt (BitVec.ofInt 32 ((s.x rs).toNat + imm.toInt))

/-- R103: `addiu` is the OR of `ori`, not an addition. The zero extension of its immediate is the spec's
decision D7 (notes/assumptions/11.md). -/
def Obligations.AddiuIsBitwiseOr : Prop :=
  (EncodedBy 0x24000000 0xFC000000 fun w => .addiu (rsOf w) (rtOf w) (immOf w)) ∧
  ∀ (rs rt : RegIdx) (imm : Imm) (s : State),
    ∃ t, exec (.addiu rs rt imm) s = .next t ∧
      WritesReg s t rt ((s.x rs).extractLsb' 16 16 ++ ((s.x rs).extractLsb' 0 16 ||| imm))

/-- R104: `slti` compares unsigned with the raw immediate bits. -/
def Obligations.SltiComparesUnsigned : Prop :=
  (EncodedBy 0x28000000 0xFC000000 fun w => .slti (rsOf w) (rtOf w) (immOf w)) ∧
  ∀ (rs rt : RegIdx) (imm : Imm) (s : State),
    ∃ t, exec (.slti rs rt imm) s = .next t ∧
      WritesReg s t rt (if (s.x rs).toNat < imm.toNat then 1#32 else 0#32)

/-- R110, R112, R114: inside the memory contract `lw` loads the word at `x[rs]`, `lb` its bits 7:0
zero-extended; no displacement is added. -/
def Obligations.LoadsReadAtBaseRegister : Prop :=
  (EncodedBy 0x8C000000 0xFC000000 fun w => .lw (rsOf w) (rtOf w) (immOf w)) ∧
  (EncodedBy 0x80000000 0xFC000000 fun w => .lb (rsOf w) (rtOf w) (immOf w)) ∧
  ∀ (rs rt : RegIdx) (imm : Imm) (s : State), admits s.config (s.x rs) = true →
    (∃ t, exec (.lw rs rt imm) s = .next t ∧ WritesReg s t rt (s.wordAt (s.x rs))) ∧
    (∃ t, exec (.lb rs rt imm) s = .next t ∧
      WritesReg s t rt (0#24 ++ (s.wordAt (s.x rs)).extractLsb' 0 8))

/-- R111, R113, R114: inside the memory contract `sw` stores `x[rt]` at `x[rs]`, and `sb` the word there
with its low byte replaced; every byte outside the four is unchanged. -/
def Obligations.StoresWriteAtBaseRegister : Prop :=
  (EncodedBy 0xAC000000 0xFC000000 fun w => .sw (rsOf w) (rtOf w) (immOf w)) ∧
  (EncodedBy 0xA0000000 0xFC000000 fun w => .sb (rsOf w) (rtOf w) (immOf w)) ∧
  ∀ (rs rt : RegIdx) (imm : Imm) (s : State), admits s.config (s.x rs) = true →
    (∃ t, exec (.sw rs rt imm) s = .next t ∧ StoresWord s t (s.x rs) (s.x rt)) ∧
    (∃ t, exec (.sb rs rt imm) s = .next t ∧
      StoresWord s t (s.x rs)
        ((s.wordAt (s.x rs)).extractLsb' 8 24 ++ (s.x rt).extractLsb' 0 8))

/-- R36, R39: outside the memory contract the four refuse by name, a non-aligned address under
`MISALIGNED = refuse` and an address of which a byte is not backed. The per-byte reading of R39 is the
model's choice (notes/assumptions/14.md). -/
def Obligations.DataAccessOutsideContractStops : Prop :=
  ∀ (i : Instr) (rs : RegIdx) (s : State), dataBase i = some rs →
    (wordAligned (s.x rs) = false → s.config.misaligned = .refuse →
      exec i s = .refused (.misalignedAddress (s.x rs))) ∧
    ((wordAligned (s.x rs) = true ∨ s.config.misaligned = .leBytes) →
      backsWord s.config (s.x rs) = false → exec i s = .refused (.unbackedAddress (s.x rs)))

/-- R120 to R122: a branch adds `(imm - 1) * 4` to the staged next PC when taken and keeps it when not:
`beq` on equal, `bne` on unequal, `bgtz` on unsigned greater than zero. -/
def Obligations.BranchesAdvanceWhenTaken : Prop :=
  (EncodedBy 0x10000000 0xFC000000 fun w => .beq (rsOf w) (rtOf w) (immOf w)) ∧
  (EncodedBy 0x14000000 0xFC000000 fun w => .bne (rsOf w) (rtOf w) (immOf w)) ∧
  (EncodedBy 0x1C000000 0xFC000000 fun w => .bgtz (rsOf w) (rtOf w) (immOf w)) ∧
  ∀ (rs rt : RegIdx) (imm : Imm) (s : State),
    (∃ t, exec (.beq rs rt imm) s = .next t ∧
      SetsPc s t (if s.x rs = s.x rt then s.nxt.pc + BitVec.ofInt 32 ((imm.toInt - 1) * 4)
        else s.nxt.pc)) ∧
    (∃ t, exec (.bne rs rt imm) s = .next t ∧
      SetsPc s t (if s.x rs ≠ s.x rt then s.nxt.pc + BitVec.ofInt 32 ((imm.toInt - 1) * 4)
        else s.nxt.pc)) ∧
    (∃ t, exec (.bgtz rs rt imm) s = .next t ∧
      SetsPc s t (if 0 < (s.x rs).toNat then s.nxt.pc + BitVec.ofInt 32 ((imm.toInt - 1) * 4)
        else s.nxt.pc))

/-- R130: `j` takes bits 31:28 from its own address, bits 27:2 from the field, zeros below. -/
def Obligations.JumpTargetLaw : Prop :=
  (EncodedBy 0x08000000 0xFC000000 fun w => .j (addressOf w)) ∧
  ∀ (address : JumpAddr) (s : State),
    ∃ t, exec (.j address) s = .next t ∧ SetsPc s t (s.cur.pc.extractLsb' 28 4 ++ address ++ 0#2)

/-- R131: `jal` links `pc + 4` in register 31 and jumps as `j`; nothing else changes. -/
def Obligations.JalLinksAndJumps : Prop :=
  (EncodedBy 0x0C000000 0xFC000000 fun w => .jal (addressOf w)) ∧
  ∀ (address : JumpAddr) (s : State),
    ∃ t, exec (.jal address) s = .next t ∧
      t.nxt.pc = s.cur.pc.extractLsb' 28 4 ++ address ++ 0#2 ∧
      (∀ q, t.nxt.read q = if q = 31#5 then s.cur.pc + 4#32 else s.nxt.read q) ∧
      t.run = s.run ∧ KeepsMemory s t ∧ KeepsInputs s t

/-- R140: `li` changes nothing; the staged next PC stays. Under `LI_ENTRY = none` no word selects it. -/
def Obligations.LiChangesNothing : Prop :=
  (∀ (w : Word) (s : State), exec (.li w) s = .next s) ∧ ∀ w v : Word, decode w ≠ .li v

/-- R141: `halt` is selected exactly when no entry matches; it clears `RUN`, and nothing else. -/
def Obligations.HaltClearsRunOnly : Prop :=
  (∀ w : Word, decode w = .halt w ↔ ∀ e ∈ Config.chosen.table, e.key.hits w = false) ∧
  ∀ (w : Word) (s : State),
    ∃ t, exec (.halt w) s = .next t ∧ t.run = false ∧ t.nxt.pc = s.nxt.pc ∧ KeepsRegs s t ∧
      KeepsMemory s t ∧ KeepsInputs s t

/-- R60: the don't-care fields of each instruction change nothing. -/
def Obligations.IgnoredFieldsHaveNoEffect : Prop :=
  ∀ (rs rt rd r r' : RegIdx) (h h' : Shamt) (imm imm' : Imm) (s : State),
    exec (.add rs rt rd h) s = exec (.add rs rt rd h') s ∧
    exec (.addu rs rt rd h) s = exec (.addu rs rt rd h') s ∧
    exec (.sub rs rt rd h) s = exec (.sub rs rt rd h') s ∧
    exec (.subu rs rt rd h) s = exec (.subu rs rt rd h') s ∧
    exec (.jr rs rt rd h) s = exec (.jr rs r r' h') s ∧
    exec (.lui rs rt imm) s = exec (.lui r rt imm) s ∧
    exec (.lw rs rt imm) s = exec (.lw rs rt imm') s ∧
    exec (.lb rs rt imm) s = exec (.lb rs rt imm') s ∧
    exec (.sw rs rt imm) s = exec (.sw rs rt imm') s ∧
    exec (.sb rs rt imm) s = exec (.sb rs rt imm') s ∧
    exec (.bgtz rs rt imm) s = exec (.bgtz rs r imm) s

/-- R95, R103, R122: the pairs the spec calls identical: `add`/`addu`, `sub`/`subu`, `addiu`/`ori`, and
`bgtz` as `bne` with register 0. -/
def Obligations.IdenticalPairs : Prop :=
  ∀ (rs rt rd : RegIdx) (h : Shamt) (imm : Imm) (s : State),
    exec (.add rs rt rd h) s = exec (.addu rs rt rd h) s ∧
    exec (.sub rs rt rd h) s = exec (.subu rs rt rd h) s ∧
    exec (.addiu rs rt imm) s = exec (.ori rs rt imm) s ∧
    exec (.bgtz rs rt imm) s = exec (.bne rs 0#5 imm) s

/-! ## The cycle -/

/-- R70, R72, R76, R78, R81: while `RUN` is 1 and the fetch is inside the contract, a step is `exec` of
the decoded instruction on the staged state, committed; where the fetch is outside, the step stops. That
the halting cycle commits too is the spec's decision D9 (notes/assumptions/13.md); how the step stops
outside the contract, and that a word is outside when any of its bytes is unbacked, is the model's choice
(notes/assumptions/1.md, 14.md). -/
def Obligations.StepRunsDecodedInstruction : Prop :=
  ∀ s : State, s.run = true →
    (admits s.config s.cur.pc = true →
      step s = andThen
        (exec (decodeWith s.config (s.wordAt s.cur.pc))
          { s with
            iw := s.wordAt s.cur.pc
            sel := arbiter s.config.table (s.wordAt s.cur.pc)
            nxt := { regs := s.cur.regs, pc := s.cur.pc + 4#32 } })
        fun t => .next { t with cur := t.nxt }) ∧
    (admits s.config s.cur.pc = false → step s = stopAt s.config s.cur.pc)

/-- R82: while `RUN` is 1 a step answers a next state exactly when every address the cycle presents is
inside the memory contract. That a word with only some bytes backed is outside it, the only-if direction
for such a word, is the model's choice (notes/assumptions/14.md). -/
def Obligations.StepIsTotalInsideContract : Prop :=
  ∀ s : State, s.run = true → ((∃ t, step s = .next t) ↔ InContract s)

/-- With the chosen parameters no state stops the machine: the spec's "every operation is total" (R150),
with `MISALIGNED = le_bytes` and all of memory backed (the model's choice, notes/assumptions/1.md). -/
def Obligations.ChosenMachineNeverStops : Prop :=
  ∀ s : State, s.config.misaligned = Config.chosen.misaligned →
    s.config.memRegions = Config.chosen.memRegions → ∃ t, step s = .next t

/-- R36, R39, R150: a step never faults, and refuses only a non-aligned address under
`MISALIGNED = refuse` or an address of which a byte is not backed (the per-byte reading is the model's
choice, notes/assumptions/14.md). -/
def Obligations.StopsOnlyOutsideContract : Prop :=
  ∀ s : State,
    (∀ r, step s = .refused r →
      (∃ a, r = .misalignedAddress a ∧ wordAligned a = false ∧ s.config.misaligned = .refuse) ∨
      ∃ a, r = .unbackedAddress a ∧ backsWord s.config a = false) ∧
    ∀ f, step s ≠ .fault f

/-- R19, R94, R123, R130, R131: the PC after a step, for every instruction: `pc + 4`, but for a taken
branch (`pc + 4 * sext(imm)`), `jr`, `j` and `jal`. -/
def Obligations.NextPcOfEveryInstruction : Prop :=
  ∀ s t : State, s.run = true → step s = .next t → t.cur.pc = nextPcOf s (nextInstr s)

/-- R15: a step changes no register but the one its instruction writes. -/
def Obligations.StepWritesOnlyItsDestination : Prop :=
  ∀ s t : State, s.run = true → step s = .next t →
    t.x 0#5 = 0#32 ∧ ∀ q, destOf (nextInstr s) ≠ some q → t.x q = s.x q

/-- R25, R37: a step changes no memory byte but the four at the data address of `sw` or `sb`. -/
def Obligations.OnlyStoresChangeMemory : Prop :=
  ∀ s t : State, s.run = true → step s = .next t → ∀ b,
    (isStore (nextInstr s) = false → t.byteAt b = s.byteAt b) ∧
    (∀ rs, dataBase (nextInstr s) = some rs →
      (∀ k < 4, b ≠ s.x rs + BitVec.ofNat 32 k) → t.byteAt b = s.byteAt b)

/-- R20, R155: `RUN` is 1 after a step exactly when it was 1 and the instruction was not `halt`. -/
def Obligations.OnlyHaltClearsRunAndNothingSetsIt : Prop :=
  ∀ s t : State, step s = .next t →
    (t.run = true ↔ s.run = true ∧ (nextInstr s).handler ≠ .halt)

/-- R71, R83, R156: a state with `RUN` 0 is final: any number of steps leave it as it is, and no access
is made. -/
def Obligations.HaltedStateIsFinal : Prop :=
  ∀ s : State, s.run = false →
    (∀ n, Host.Core.run Sys2Proof.core n s = .next s) ∧ busTrace s = []

/-- R153: the cycle of an unmatched word clears `RUN`, commits `pc + 4`, and changes no register and no
memory byte; the word's address is the new PC minus 4. -/
def Obligations.HaltEventIsPrecise : Prop :=
  ∀ s : State, s.run = true → admits s.config s.cur.pc = true →
    (∀ e ∈ s.config.table, e.key.hits (fetchedWord s) = false) →
    ∃ t, step s = .next t ∧ t.run = false ∧ t.cur.pc - 4#32 = s.cur.pc ∧ (∀ q, t.x q = s.x q) ∧
      t.mem = s.mem ∧ t.config = s.config

/-- R22, R23: `IW`, `SEL` and the next snapshot at the start of a cycle are never read. -/
def Obligations.HiddenStateIsNeverRead : Prop :=
  ∀ (s : State) (w : Word) (h : Handler) (n : Snapshot), s.run = true →
    step { s with iw := w, sel := h, nxt := n } = step s

/-! ## Invariants -/

/-- Every step keeps the invariant: canonical memory, well-formed parameters, snapshots that agree. `NXT` is
no storage in the spec; that it keeps its value after the commit, so that the snapshots agree between
cycles, is the model's choice (notes/assumptions/4.md), and the parameters as a field of State are the
model's (1.md). -/
def Obligations.StepKeepsInvariant : Prop :=
  ∀ s t : State, s.Inv → step s = .next t → t.Inv ∧ t.config = s.config

/-- The reset state meets the invariant. Its agreement clause, `NXT` equal to `CUR` (the PC included), rests
on the model's choice of `NXT` at reset, which R24 leaves open (notes/assumptions/4.md). That memory lists
nothing and that the parameters are the chosen ones are the model's choices too (5.md, 1.md). -/
def Obligations.ResetMeetsInvariant : Prop := State.reset.Inv

/-- R19, R179: from an aligned PC a step leaves an aligned PC, unless it is a `jr` to a non-aligned
target. -/
def Obligations.PcStaysAligned : Prop :=
  ∀ s t : State, wordAligned s.cur.pc = true → step s = .next t →
    (∀ rs rt rd shamt, nextInstr s = .jr rs rt rd shamt → wordAligned (s.x rs) = true) →
    wordAligned t.cur.pc = true

/-! ## Memory -/

/-- R32, R41: after any writes at word-aligned addresses, a read at a word-aligned address returns the
most recent value written there, or what it read before if there was none. -/
def Obligations.ReadReturnsMostRecentWrite : Prop :=
  ∀ (s : State) (writes : List (Word × Word)) (a : Word), wordAligned a = true →
    (∀ p ∈ writes, wordAligned p.1 = true) →
    (writes.foldl (fun s p => s.placeWord p.1 p.2) s).wordAt a =
      ((writes.reverse.find? fun p => p.1 == a).map fun p => p.2).getD (s.wordAt a)

/-- R32, R36: at any address, aligned or not, a completed write is read back, and leaves every byte
outside its four alone. -/
def Obligations.WrittenWordReadsBack : Prop :=
  ∀ (s t : State) (a v : Word), s.memWrite a v = .next t →
    t.memRead a = .next v ∧
      ∀ b, (∀ k < 4, b ≠ a + BitVec.ofNat 32 k) → t.byteAt b = s.byteAt b

/-- R33: which byte of a word lies where, as numbers, under each byte order; addresses are modulo 2^32. -/
def Obligations.ByteOrderOfAWord : Prop :=
  ∀ (s : State) (a : Word),
    (s.config.endian = .little → (s.wordAt a).toNat =
      (s.byteAt a).toNat + 2 ^ 8 * (s.byteAt (a + 1#32)).toNat + 2 ^ 16 * (s.byteAt (a + 2#32)).toNat +
        2 ^ 24 * (s.byteAt (a + 3#32)).toNat) ∧
    (s.config.endian = .big → (s.wordAt a).toNat =
      2 ^ 24 * (s.byteAt a).toNat + 2 ^ 16 * (s.byteAt (a + 1#32)).toNat +
        2 ^ 8 * (s.byteAt (a + 2#32)).toNat + (s.byteAt (a + 3#32)).toNat)

/-- R44: a word that `sw` stores is the word a later fetch of that address reads, with no step between;
the storing instruction itself completes as fetched even where it overwrites its own word. -/
def Obligations.StoreIsSeenByNextFetch : Prop :=
  ∀ (s t : State) (rs rt : RegIdx) (imm : Imm), s.run = true →
    nextInstr s = .sw rs rt imm → step s = .next t →
    t.wordAt (s.x rs) = s.x rt ∧ t.cur.pc = s.cur.pc + 4#32 ∧
      (s.x rs = s.cur.pc + 4#32 → t.fetch = .next (t.staged (s.x rt)))

/-- R34: word-aligned cycles cannot tell the byte orders apart: states alike to aligned accesses step to
states alike to aligned accesses. -/
def Obligations.AlignedCyclesCannotSeeByteOrder : Prop :=
  ∀ s t s' : State, SameWords s t → AlignedCycle s → step s = .next s' →
    ∃ t', step t = .next t' ∧ SameWords s' t'

/-! ## Datapath and ports -/

/-- R79, R80: the datapath under the control table does what the handlers do, in every state. -/
def Obligations.DatapathEqualsHandlers : Prop :=
  ∀ s : State, datapathStep s = step s

/-- R37: a completed cycle's accesses on the interface are the fetch read, then at most one data read,
then at most one data write, and its memory is the old one with exactly those writes applied. -/
def Obligations.BusTraceAccountsForMemory : Prop :=
  ∀ s t : State, s.run = true → step s = .next t →
    (∃ reads writes, busTrace s = .read s.cur.pc :: (reads ++ writes) ∧
      reads.length ≤ 1 ∧ writes.length ≤ 1 ∧
      (∀ x ∈ reads, x.isWrite = false) ∧ ∀ x ∈ writes, x.isWrite = true) ∧
    t.mem = (busTrace s).foldl (applyAccess s.config.endian) s.mem

/-! ## Reset and loading -/

/-- R24, R170, R171: reset loads the PC, the registers and `RUN` from the parameters whatever the state
was, leaves every memory byte and the parameters alone, and has priority over the cycle. -/
def Obligations.ResetEdgeLoadsParameters : Prop :=
  ∀ s : State, ∃ t, clockEdge true s = .next t ∧ t.cur.pc = s.config.resetPc ∧
    t.cur.regs = s.config.resetRegs ∧ t.run = true ∧ t.mem = s.mem ∧ t.config = s.config

/-- R24 with the chosen values: the reset state, and what reset does to it. The model's choices: the value
of `RESET_PC` (notes/assumptions/2.md), the byte an unlisted address reads as (5.md), and, in the last
clause, the values of `IW`, `SEL` and `NXT`, which R24 and R170 leave open (4.md). The zeros of the
registers are the spec's decision D11 (3.md). -/
def Obligations.ResetStateValues : Prop :=
  State.reset.cur.pc = 0x00400000 ∧ (∀ r, State.reset.x r = 0) ∧ State.reset.run = true ∧
    (∀ a, State.reset.byteAt a = 0) ∧ clockEdge true State.reset = .next State.reset

/-- R172, R174: the words of a loaded program, each at its place, are what is read from `RESET_PC` on,
and the first of them is fetched after reset. -/
def Obligations.LoadedProgramIsFetched : Prop :=
  ∀ (s : State) (ws : List Word), ws.length ≤ 2 ^ 30 →
    (∀ k (h : k < ws.length),
      (s.loadProgram ws).wordAt (s.config.resetPc + BitVec.ofNat 32 (4 * k)) = ws[k]) ∧
    (∀ w rest, ws = w :: rest → admits s.config s.config.resetPc = true →
      (s.loadProgram ws).assertReset.fetch =
        .next ((s.loadProgram ws).assertReset.staged w))

/-- R63: `lui` then `ori` leave any 32-bit value in the register, as the expansion of `li` says. -/
def Obligations.LiExpansionLoadsValue : Prop :=
  ∀ (rt : RegIdx) (v : Word) (s : State), rt ≠ 0#5 →
    ∃ t u, exec (asmLui rt (v.extractLsb' 16 16)) s = .next t ∧
      exec (asmOri rt rt (v.extractLsb' 0 16)) t.commit = .next u ∧ u.commit.x rt = v
end

