-- ==== Sys2Proof/Laws/State.lean ====
section
/-! SUPPORT. One lemma per field per state update, each true by definition, so that no later proof unfolds a record update. -/

namespace Sys2Proof.Machine

@[simp] theorem State.setX_cur (s : State) (i : RegIdx) (v : Word) : (s.setX i v).cur = s.cur := rfl
@[simp] theorem State.setX_nxt (s : State) (i : RegIdx) (v : Word) : (s.setX i v).nxt = s.nxt.write i v := rfl
@[simp] theorem State.setX_run (s : State) (i : RegIdx) (v : Word) : (s.setX i v).run = s.run := rfl
@[simp] theorem State.setX_iw (s : State) (i : RegIdx) (v : Word) : (s.setX i v).iw = s.iw := rfl
@[simp] theorem State.setX_sel (s : State) (i : RegIdx) (v : Word) : (s.setX i v).sel = s.sel := rfl
@[simp] theorem State.setX_mem (s : State) (i : RegIdx) (v : Word) : (s.setX i v).mem = s.mem := rfl
@[simp] theorem State.setX_config (s : State) (i : RegIdx) (v : Word) : (s.setX i v).config = s.config := rfl

@[simp] theorem State.setPc_cur (s : State) (p : Word) : (s.setPc p).cur = s.cur := rfl
@[simp] theorem State.setPc_nxt (s : State) (p : Word) : (s.setPc p).nxt = { s.nxt with pc := p } := rfl
@[simp] theorem State.setPc_run (s : State) (p : Word) : (s.setPc p).run = s.run := rfl
@[simp] theorem State.setPc_iw (s : State) (p : Word) : (s.setPc p).iw = s.iw := rfl
@[simp] theorem State.setPc_sel (s : State) (p : Word) : (s.setPc p).sel = s.sel := rfl
@[simp] theorem State.setPc_mem (s : State) (p : Word) : (s.setPc p).mem = s.mem := rfl
@[simp] theorem State.setPc_config (s : State) (p : Word) : (s.setPc p).config = s.config := rfl

@[simp] theorem State.advancePc_cur (s : State) (d : Word) : (s.advancePc d).cur = s.cur := rfl
@[simp] theorem State.advancePc_nxt (s : State) (d : Word) : (s.advancePc d).nxt = { s.nxt with pc := s.nxt.pc + d } := rfl
@[simp] theorem State.advancePc_run (s : State) (d : Word) : (s.advancePc d).run = s.run := rfl
@[simp] theorem State.advancePc_iw (s : State) (d : Word) : (s.advancePc d).iw = s.iw := rfl
@[simp] theorem State.advancePc_sel (s : State) (d : Word) : (s.advancePc d).sel = s.sel := rfl
@[simp] theorem State.advancePc_mem (s : State) (d : Word) : (s.advancePc d).mem = s.mem := rfl
@[simp] theorem State.advancePc_config (s : State) (d : Word) : (s.advancePc d).config = s.config := rfl

@[simp] theorem State.staged_cur (s : State) (w : Word) : (s.staged w).cur = s.cur := rfl
@[simp] theorem State.staged_nxt (s : State) (w : Word) : (s.staged w).nxt = { regs := s.cur.regs, pc := s.cur.pc + 4#32 } := rfl
@[simp] theorem State.staged_run (s : State) (w : Word) : (s.staged w).run = s.run := rfl
@[simp] theorem State.staged_iw (s : State) (w : Word) : (s.staged w).iw = w := rfl
@[simp] theorem State.staged_sel (s : State) (w : Word) : (s.staged w).sel = s.sel := rfl
@[simp] theorem State.staged_mem (s : State) (w : Word) : (s.staged w).mem = s.mem := rfl
@[simp] theorem State.staged_config (s : State) (w : Word) : (s.staged w).config = s.config := rfl

@[simp] theorem State.select_cur (s : State) : s.select.cur = s.cur := rfl
@[simp] theorem State.select_nxt (s : State) : s.select.nxt = s.nxt := rfl
@[simp] theorem State.select_run (s : State) : s.select.run = s.run := rfl
@[simp] theorem State.select_iw (s : State) : s.select.iw = s.iw := rfl
@[simp] theorem State.select_sel (s : State) : s.select.sel = arbiter s.config.table s.iw := rfl
@[simp] theorem State.select_mem (s : State) : s.select.mem = s.mem := rfl
@[simp] theorem State.select_config (s : State) : s.select.config = s.config := rfl

@[simp] theorem State.commit_cur (s : State) : s.commit.cur = s.nxt := rfl
@[simp] theorem State.commit_nxt (s : State) : s.commit.nxt = s.nxt := rfl
@[simp] theorem State.commit_run (s : State) : s.commit.run = s.run := rfl
@[simp] theorem State.commit_iw (s : State) : s.commit.iw = s.iw := rfl
@[simp] theorem State.commit_sel (s : State) : s.commit.sel = s.sel := rfl
@[simp] theorem State.commit_mem (s : State) : s.commit.mem = s.mem := rfl
@[simp] theorem State.commit_config (s : State) : s.commit.config = s.config := rfl

@[simp] theorem State.haltEvent_cur (s : State) : s.haltEvent.cur = s.cur := rfl
@[simp] theorem State.haltEvent_nxt (s : State) : s.haltEvent.nxt = s.nxt := rfl
@[simp] theorem State.haltEvent_run (s : State) : s.haltEvent.run = false := rfl
@[simp] theorem State.haltEvent_iw (s : State) : s.haltEvent.iw = s.iw := rfl
@[simp] theorem State.haltEvent_sel (s : State) : s.haltEvent.sel = s.sel := rfl
@[simp] theorem State.haltEvent_mem (s : State) : s.haltEvent.mem = s.mem := rfl
@[simp] theorem State.haltEvent_config (s : State) : s.haltEvent.config = s.config := rfl

@[simp] theorem State.clearRun_cur (s : State) : s.clearRun.cur = s.cur := rfl
@[simp] theorem State.clearRun_nxt (s : State) : s.clearRun.nxt = s.nxt := rfl
@[simp] theorem State.clearRun_run (s : State) : s.clearRun.run = false := rfl
@[simp] theorem State.clearRun_iw (s : State) : s.clearRun.iw = s.iw := rfl
@[simp] theorem State.clearRun_sel (s : State) : s.clearRun.sel = s.sel := rfl
@[simp] theorem State.clearRun_mem (s : State) : s.clearRun.mem = s.mem := rfl
@[simp] theorem State.clearRun_config (s : State) : s.clearRun.config = s.config := rfl

@[simp] theorem State.placeWord_cur (s : State) (a w : Word) : (s.placeWord a w).cur = s.cur := rfl
@[simp] theorem State.placeWord_nxt (s : State) (a w : Word) : (s.placeWord a w).nxt = s.nxt := rfl
@[simp] theorem State.placeWord_run (s : State) (a w : Word) : (s.placeWord a w).run = s.run := rfl
@[simp] theorem State.placeWord_iw (s : State) (a w : Word) : (s.placeWord a w).iw = s.iw := rfl
@[simp] theorem State.placeWord_sel (s : State) (a w : Word) : (s.placeWord a w).sel = s.sel := rfl
@[simp] theorem State.placeWord_mem (s : State) (a w : Word) : (s.placeWord a w).mem = Memory.writeWord s.config.endian s.mem a w := rfl
@[simp] theorem State.placeWord_config (s : State) (a w : Word) : (s.placeWord a w).config = s.config := rfl

@[simp] theorem State.assertReset_cur (s : State) : s.assertReset.cur = Snapshot.atReset s.config := rfl
@[simp] theorem State.assertReset_nxt (s : State) : s.assertReset.nxt = Snapshot.atReset s.config := rfl
@[simp] theorem State.assertReset_run (s : State) : s.assertReset.run = true := rfl
@[simp] theorem State.assertReset_iw (s : State) : s.assertReset.iw = 0#32 := rfl
@[simp] theorem State.assertReset_sel (s : State) : s.assertReset.sel = Handler.halt := rfl
@[simp] theorem State.assertReset_mem (s : State) : s.assertReset.mem = s.mem := rfl
@[simp] theorem State.assertReset_config (s : State) : s.assertReset.config = s.config := rfl

@[simp] theorem State.setX_x (s : State) (i : RegIdx) (v : Word) (q : RegIdx) : (s.setX i v).x q = s.x q := rfl
@[simp] theorem State.setPc_x (s : State) (p : Word) (q : RegIdx) : (s.setPc p).x q = s.x q := rfl
@[simp] theorem State.advancePc_x (s : State) (d : Word) (q : RegIdx) : (s.advancePc d).x q = s.x q := rfl
@[simp] theorem State.staged_x (s : State) (w : Word) (q : RegIdx) : (s.staged w).x q = s.x q := rfl
@[simp] theorem State.select_x (s : State) (q : RegIdx) : s.select.x q = s.x q := rfl
@[simp] theorem State.staged_wordAt (s : State) (w a : Word) : (s.staged w).wordAt a = s.wordAt a := rfl
@[simp] theorem State.select_wordAt (s : State) (a : Word) : s.select.wordAt a = s.wordAt a := rfl

/-- After fetch and decode, the instruction is the decoded word. -/
theorem State.instr_of_staged (s : State) (w : Word) :
    (s.staged w).select.instr = decodeWith s.config w := rfl

end Sys2Proof.Machine
end

