-- ==== Sys2Proof/Laws/Memory.lean ====
section
/-! SUPPORT. The laws of the byte map: read after write, the canonical form, and words made of bytes. -/

namespace Sys2Proof.Machine

/-! ## Read after write -/

theorem Memory.read_erase (m : Memory) (a b : Nat) :
    (m.erase a).read b = if b = a then Memory.unlisted else m.read b := by
  induction m with
  | nil => simp [Memory.erase, Memory.read]
  | cons e m ih =>
    obtain ⟨k, v⟩ := e
    by_cases hka : k = a
    · subst hka
      by_cases hb : b = k
      · subst hb; simp [Memory.erase, ih]
      · simp [Memory.erase, ih, hb, Memory.read, Ne.symm hb]
    · by_cases hkb : k = b
      · subst hkb; simp [Memory.erase, Memory.read, hka]
      · simp [Memory.erase, Memory.read, hka, hkb, ih]

theorem Memory.read_insert (m : Memory) (a b : Nat) (v : Byte)
    (hm : ∀ e ∈ m, e.1 ≠ a) : (m.insert a v).read b = if b = a then v else m.read b := by
  induction m with
  | nil =>
    by_cases hb : b = a
    · subst hb; simp [Memory.insert, Memory.read]
    · simp [Memory.insert, Memory.read, hb, Ne.symm hb]
  | cons e m ih =>
    obtain ⟨k, w⟩ := e
    have hk : k ≠ a := hm _ List.mem_cons_self
    have ih := ih fun e he => hm e (List.mem_cons_of_mem _ he)
    by_cases hb : b = a
    · subst hb
      by_cases hlt : b < k
      · simp [Memory.insert, Memory.read, hlt]
      · simp [Memory.insert, Memory.read, hlt, hk, ih]
    · by_cases hlt : a < k
      · simp [Memory.insert, Memory.read, hlt, hb, Ne.symm hb]
      · by_cases hkb : k = b
        · subst hkb; simp [Memory.insert, Memory.read, hlt, hb]
        · simp [Memory.insert, Memory.read, hlt, hkb, hb, ih]

theorem Memory.erase_ne (m : Memory) (a : Nat) : ∀ e ∈ m.erase a, e.1 ≠ a := by
  induction m with
  | nil => simp [Memory.erase]
  | cons e m ih =>
    obtain ⟨k, v⟩ := e
    by_cases hk : k = a
    · simpa [Memory.erase, hk] using ih
    · simpa [Memory.erase, hk] using ih

/-- A write is seen at its address and nowhere else, whatever the memory's form. -/
theorem Memory.read_write (m : Memory) (a b : Nat) (v : Byte) :
    (m.write a v).read b = if b = a then v else m.read b := by
  unfold Memory.write
  split
  · rename_i h; rw [Memory.read_erase]; simp [h]
  · rw [Memory.read_insert _ _ _ _ (Memory.erase_ne m a), Memory.read_erase]
    split <;> rfl

/-! ## The canonical form -/

theorem Memory.wfFrom_le {m : Memory} {lo lo' : Nat} (hle : lo' ≤ lo) (h : Memory.wfFrom lo m = true) :
    Memory.wfFrom lo' m = true := by
  cases m with
  | nil => rfl
  | cons e m =>
    obtain ⟨k, v⟩ := e
    simp only [Memory.wfFrom, Bool.and_eq_true, decide_eq_true_eq] at h ⊢
    exact ⟨⟨⟨hle.trans h.1.1.1, h.1.1.2⟩, h.1.2⟩, h.2⟩

theorem Memory.wfFrom_erase {m : Memory} {lo : Nat} (a : Nat) (h : Memory.wfFrom lo m = true) :
    Memory.wfFrom lo (m.erase a) = true := by
  induction m generalizing lo with
  | nil => rfl
  | cons e m ih =>
    obtain ⟨k, v⟩ := e
    simp only [Memory.wfFrom, Bool.and_eq_true, decide_eq_true_eq] at h
    by_cases hk : k = a
    · simp only [Memory.erase, hk, if_true]
      exact Memory.wfFrom_le (by omega) (ih h.2)
    · simp only [Memory.erase, hk, if_false, Memory.wfFrom, Bool.and_eq_true, decide_eq_true_eq]
      exact ⟨h.1, ih h.2⟩

theorem Memory.wfFrom_insert {m : Memory} {lo a : Nat} {v : Byte} (hlo : lo ≤ a) (ha : a < 2 ^ 32)
    (hv : v ≠ Memory.unlisted) (hm : ∀ e ∈ m, e.1 ≠ a) (h : Memory.wfFrom lo m = true) :
    Memory.wfFrom lo (m.insert a v) = true := by
  induction m generalizing lo with
  | nil => simp [Memory.insert, Memory.wfFrom, hlo, hv]; omega
  | cons e m ih =>
    obtain ⟨k, w⟩ := e
    have hk : k ≠ a := hm _ List.mem_cons_self
    simp only [Memory.wfFrom, Bool.and_eq_true, decide_eq_true_eq] at h
    by_cases hlt : a < k
    · simp only [Memory.insert, hlt, if_true, Memory.wfFrom, Bool.and_eq_true, decide_eq_true_eq, bne_iff_ne]
      exact ⟨⟨⟨hlo, ha⟩, hv⟩, ⟨⟨by omega, h.1.1.2⟩, by simpa using h.1.2⟩, h.2⟩
    · simp only [Memory.insert, hlt, if_false, Memory.wfFrom, Bool.and_eq_true, decide_eq_true_eq]
      exact ⟨h.1, ih (by omega) (fun e he => hm e (List.mem_cons_of_mem _ he)) h.2⟩

/-- Every byte write inside the address space keeps the canonical form. -/
theorem Memory.wf_write {m : Memory} {a : Nat} (v : Byte) (ha : a < 2 ^ 32) (h : m.wf = true) :
    (m.write a v).wf = true := by
  unfold Memory.write Memory.wf
  split
  · exact Memory.wfFrom_erase a h
  · rename_i hv
    exact Memory.wfFrom_insert (Nat.zero_le a) ha hv (Memory.erase_ne m a) (Memory.wfFrom_erase a h)

/-- Every word write keeps the canonical form. -/
theorem Memory.wf_writeWord {m : Memory} (e : Endian) (a v : Word) (h : m.wf = true) :
    (Memory.writeWord e m a v).wf = true :=
  Memory.wf_write _ (a + 3#32).isLt (Memory.wf_write _ (a + 2#32).isLt
    (Memory.wf_write _ (a + 1#32).isLt (Memory.wf_write _ a.isLt h)))

/-! ## Words -/

theorem toNat_eq_iff (a b : Word) : a.toNat = b.toNat ↔ a = b :=
  ⟨BitVec.eq_of_toNat_eq, congrArg _⟩

/-- The bytes after a word write. -/
theorem Memory.read_writeWord (e : Endian) (m : Memory) (a v b : Word) :
    (Memory.writeWord e m a v).read b.toNat =
      if b = a + 3#32 then e.byteOf v 3 else if b = a + 2#32 then e.byteOf v 2
      else if b = a + 1#32 then e.byteOf v 1 else if b = a then e.byteOf v 0 else m.read b.toNat := by
  simp only [Memory.writeWord, Memory.read_write, toNat_eq_iff]

/-- The bytes of a word put together again are the word. -/
theorem join_byteOf (e : Endian) (v : Word) :
    e.join (e.byteOf v 0) (e.byteOf v 1) (e.byteOf v 2) (e.byteOf v 3) = v := by
  have h1 : v.extractLsb' 24 8 ++ v.extractLsb' 16 8 = v.extractLsb' 16 16 :=
    BitVec.extractLsb'_append_extractLsb'_eq_extractLsb' rfl
  have h2 : v.extractLsb' 16 16 ++ v.extractLsb' 8 8 = v.extractLsb' 8 24 :=
    BitVec.extractLsb'_append_extractLsb'_eq_extractLsb' rfl
  have h3 : v.extractLsb' 8 24 ++ v.extractLsb' 0 8 = v :=
    (BitVec.extractLsb'_append_extractLsb'_eq_extractLsb' rfl).trans BitVec.extractLsb'_eq_self
  cases e <;>
  · show v.extractLsb' 24 8 ++ v.extractLsb' 16 8 ++ v.extractLsb' 8 8 ++ v.extractLsb' 0 8 = v
    rw [h1, h2, h3]

/-- The four addresses of a word are different. -/
theorem word_addresses_ne (a : Word) :
    a ≠ a + 1#32 ∧ a ≠ a + 2#32 ∧ a ≠ a + 3#32 ∧ a + 1#32 ≠ a + 2#32 ∧ a + 1#32 ≠ a + 3#32 ∧ a + 2#32 ≠ a + 3#32 := by
  refine ⟨?_, ?_, ?_, ?_, ?_, ?_⟩ <;> bv_omega

/-- A byte of a placed word. -/
theorem State.byteAt_placeWord (s : State) (a v b : Word) :
    (s.placeWord a v).byteAt b =
      if b = a + 3#32 then s.config.endian.byteOf v 3 else if b = a + 2#32 then s.config.endian.byteOf v 2
      else if b = a + 1#32 then s.config.endian.byteOf v 1
      else if b = a then s.config.endian.byteOf v 0 else s.byteAt b :=
  Memory.read_writeWord _ _ _ _ _

/-- The word stored at an address is read back there, aligned or not. -/
theorem State.wordAt_placeWord_same (s : State) (a v : Word) : (s.placeWord a v).wordAt a = v := by
  obtain ⟨h01, h02, h03, h12, h13, h23⟩ := word_addresses_ne a
  simp only [State.wordAt, State.byteAt_placeWord, State.placeWord_config, h01, h02, h03, h12, h13, h23,
    if_false, if_true]
  exact join_byteOf _ v

/-- A byte outside the four of the word stored is unchanged. -/
theorem State.byteAt_placeWord_of_ne (s : State) {a b : Word} (v : Word)
    (h : ∀ k < 4, b ≠ a + BitVec.ofNat 32 k) : (s.placeWord a v).byteAt b = s.byteAt b := by
  have h0 : b ≠ a := by simpa using h 0 (by omega)
  have h1 : b ≠ a + 1#32 := h 1 (by omega)
  have h2 : b ≠ a + 2#32 := h 2 (by omega)
  have h3 : b ≠ a + 3#32 := h 3 (by omega)
  rw [State.byteAt_placeWord, if_neg h3, if_neg h2, if_neg h1, if_neg h0]

/-- A word none of whose bytes is among the four stored is unchanged. -/
theorem State.wordAt_placeWord_of_ne (s : State) {a b : Word} (v : Word)
    (h : ∀ j < 4, ∀ k < 4, b + BitVec.ofNat 32 j ≠ a + BitVec.ofNat 32 k) :
    (s.placeWord a v).wordAt b = s.wordAt b := by
  have e0 : (s.placeWord a v).byteAt b = s.byteAt b :=
    s.byteAt_placeWord_of_ne v fun k hk => by simpa using h 0 (by omega) k hk
  have e (j : Nat) (hj : j < 4) :
      (s.placeWord a v).byteAt (b + BitVec.ofNat 32 j) = s.byteAt (b + BitVec.ofNat 32 j) :=
    s.byteAt_placeWord_of_ne v (h j hj)
  have e1 : (s.placeWord a v).byteAt (b + 1#32) = s.byteAt (b + 1#32) := e 1 (by omega)
  have e2 : (s.placeWord a v).byteAt (b + 2#32) = s.byteAt (b + 2#32) := e 2 (by omega)
  have e3 : (s.placeWord a v).byteAt (b + 3#32) = s.byteAt (b + 3#32) := e 3 (by omega)
  simp only [State.wordAt, State.placeWord_config, e0, e1, e2, e3]

/-- The alignment test, as a number. -/
theorem wordAligned_iff (a : Word) : wordAligned a = true ↔ a.toNat % 4 = 0 := by
  simp only [wordAligned, beq_iff_eq, ← BitVec.toNat_inj, BitVec.extractLsb'_toNat, Nat.shiftRight_zero]
  rfl

/-- Word-aligned words at different addresses share no byte. -/
theorem aligned_words_disjoint {a b : Word} (ha : wordAligned a = true) (hb : wordAligned b = true)
    (hne : b ≠ a) : ∀ j < 4, ∀ k < 4, b + BitVec.ofNat 32 j ≠ a + BitVec.ofNat 32 k := by
  rw [wordAligned_iff] at ha hb
  intro j hj k hk e
  have hab : b.toNat ≠ a.toNat := fun h => hne (BitVec.eq_of_toNat_eq h)
  have := congrArg BitVec.toNat e
  simp only [BitVec.toNat_add, BitVec.toNat_ofNat] at this
  have := a.isLt
  have := b.isLt
  omega

end Sys2Proof.Machine
end

