-- ==== Sys2Proof/Laws/Registers.lean ====
section
/-! SUPPORT. The laws of guarded register access (spec/10_state.md rules R13, R14). -/

namespace Sys2Proof.Machine

@[simp] theorem Snapshot.read_zero (c : Snapshot) : c.read 0#5 = 0#32 := by simp [Snapshot.read]

@[simp] theorem Snapshot.write_zero (c : Snapshot) (v : Word) : c.write 0#5 v = c := by
  simp [Snapshot.write]

@[simp] theorem Snapshot.write_pc (c : Snapshot) (i : RegIdx) (v : Word) : (c.write i v).pc = c.pc := by
  unfold Snapshot.write; split <;> rfl

/-- The PC is no register. -/
@[simp] theorem Snapshot.read_withPc (c : Snapshot) (p : Word) (q : RegIdx) :
    Snapshot.read { c with pc := p } q = c.read q := rfl

/-- Two snapshots with the same registers read alike. -/
theorem Snapshot.read_congr {c d : Snapshot} (h : c.regs = d.regs) (q : RegIdx) : c.read q = d.read q := by
  unfold Snapshot.read; simp [h]

/-- The register file after a guarded write, register by register. -/
theorem Snapshot.read_write (c : Snapshot) (i q : RegIdx) (v : Word) :
    (c.write i v).read q = if q = i ∧ i ≠ 0#5 then v else c.read q := by
  by_cases hi : i = 0#5
  · subst hi; simp
  by_cases hq : q = 0#5
  · subst hq; simp [Ne.symm hi]
  have hi0 : i.toNat ≠ 0 := fun e => hi (BitVec.eq_of_toNat_eq e)
  have hq0 : q.toNat ≠ 0 := fun e => hq (BitVec.eq_of_toNat_eq e)
  by_cases hqi : q = i
  · subst hqi; simp [Snapshot.write, Snapshot.read, hq]
  · have hne : i.toNat - 1 ≠ q.toNat - 1 := fun e => hqi (BitVec.eq_of_toNat_eq (by omega))
    simp [Snapshot.write, Snapshot.read, hi, hq, hqi, hne]

/-! ## The next PC -/

/-- Setting the next PC to what it is changes nothing. -/
theorem State.setPc_self (s : State) {p : Word} (h : s.nxt.pc = p) : s.setPc p = s := by
  subst h; rfl

/-- The same after a register write, which leaves the next PC alone. -/
theorem State.setX_setPc_self (s : State) (r : RegIdx) (v : Word) {p : Word} (h : s.nxt.pc = p) :
    (s.setX r v).setPc p = s.setX r v :=
  State.setPc_self _ (by simp [h])

end Sys2Proof.Machine
end

