-- ==== Sys2Proof/Laws/Access.lean ====
section
/-! SUPPORT. What each shared operation that can stop answers, said once: `andThen`, `memRead`, `memWrite`, `fetch` (spec/20_memory.md rules R31, R32, R36, R39). -/

namespace Sys2Proof.Machine

section AndThen

variable {α β : Type} {x : Host.Outcome α Fault Refusal} {k : α → Host.Outcome β Fault Refusal}

@[simp] theorem andThen_next (a : α) : andThen (.next a) k = k a := rfl
@[simp] theorem andThen_fault (f : Fault) : andThen (.fault f : Host.Outcome α Fault Refusal) k = .fault f := rfl
@[simp] theorem andThen_refused (r : Refusal) :
    andThen (.refused r : Host.Outcome α Fault Refusal) k = .refused r := rfl

theorem andThen_eq_next {b : β} : andThen x k = .next b ↔ ∃ a, x = .next a ∧ k a = .next b := by
  cases x <;> simp [andThen]

theorem andThen_eq_fault {f : Fault} :
    andThen x k = .fault f ↔ x = .fault f ∨ ∃ a, x = .next a ∧ k a = .fault f := by
  cases x <;> simp [andThen]

theorem andThen_eq_refused {r : Refusal} :
    andThen x k = .refused r ↔ x = .refused r ∨ ∃ a, x = .next a ∧ k a = .refused r := by
  cases x <;> simp [andThen]

end AndThen

/-! ## Stops -/

/-- Outside the memory contract: refused by alignment, or refused for an unbacked byte. -/
theorem stopAt_cases {α : Type} {c : Config} {a : Word} (h : admits c a = false) :
    ((stopAt c a : Host.Outcome α Fault Refusal) = .refused (.misalignedAddress a) ∧
      wordAligned a = false ∧ c.misaligned = .refuse) ∨
    ((stopAt c a : Host.Outcome α Fault Refusal) = .refused (.unbackedAddress a) ∧
      backsWord c a = false) := by
  unfold stopAt
  split
  · rename_i hr; exact .inl ⟨rfl, by simpa using hr⟩
  · rename_i hr
    right
    refine ⟨rfl, ?_⟩
    cases hm : c.misaligned <;> cases hw : wordAligned a <;> simp_all [admits]

theorem stopAt_ne_next {α : Type} {c : Config} {a : Word} (b : α) :
    (stopAt c a : Host.Outcome α Fault Refusal) ≠ .next b := by simp [stopAt]

/-- A stop stops whatever would follow it. -/
@[simp] theorem andThen_stopAt {α β : Type} (c : Config) (a : Word) (k : α → Host.Outcome β Fault Refusal) :
    andThen (stopAt c a) k = stopAt c a := rfl

/-! ## The two primitives -/

theorem State.memRead_of_admits {s : State} {a : Word} (h : admits s.config a = true) :
    s.memRead a = .next (s.wordAt a) := by simp [State.memRead, h]

theorem State.memRead_of_not_admits {s : State} {a : Word} (h : admits s.config a = false) :
    s.memRead a = stopAt s.config a := by simp [State.memRead, h]

/-- A completed read is of an admitted address and answers the word there. -/
theorem State.memRead_eq_next {s : State} {a w : Word} :
    s.memRead a = .next w ↔ admits s.config a = true ∧ w = s.wordAt a := by
  cases h : admits s.config a
  · simp [State.memRead, h, stopAt_ne_next]
  · simp [State.memRead, h, eq_comm]

theorem State.memWrite_of_admits {s : State} {a : Word} (v : Word) (h : admits s.config a = true) :
    s.memWrite a v = .next (s.placeWord a v) := by simp [State.memWrite, h, State.placeWord]

theorem State.memWrite_of_not_admits {s : State} {a : Word} (v : Word)
    (h : admits s.config a = false) : s.memWrite a v = stopAt s.config a := by
  simp [State.memWrite, h]

/-- A completed write is to an admitted address and leaves the state with the word placed there. -/
theorem State.memWrite_eq_next {s t : State} {a v : Word} :
    s.memWrite a v = .next t ↔ admits s.config a = true ∧ t = s.placeWord a v := by
  cases h : admits s.config a
  · simp [State.memWrite, h, stopAt_ne_next]
  · simp [State.memWrite, h, State.placeWord, eq_comm]

/-- A completed fetch stages the word at the PC. -/
theorem State.fetch_eq_next {s t : State} :
    s.fetch = .next t ↔ admits s.config s.cur.pc = true ∧ t = s.staged (s.wordAt s.cur.pc) := by
  simp only [State.fetch, andThen_eq_next, State.memRead_eq_next]
  constructor
  · rintro ⟨w, ⟨h, rfl⟩, ht⟩
    exact ⟨h, by simpa using ht.symm⟩
  · rintro ⟨h, rfl⟩
    exact ⟨_, ⟨h, rfl⟩, rfl⟩

theorem State.fetch_of_admits {s : State} (h : admits s.config s.cur.pc = true) :
    s.fetch = .next (s.staged (s.wordAt s.cur.pc)) := State.fetch_eq_next.2 ⟨h, rfl⟩

theorem State.fetch_of_not_admits {s : State} (h : admits s.config s.cur.pc = false) :
    s.fetch = stopAt s.config s.cur.pc := by
  rw [State.fetch, State.memRead_of_not_admits h, andThen_stopAt]

end Sys2Proof.Machine
end

