-- ==== Sys2Proof/Laws/Decode.lean ====
section
/-! SUPPORT. The laws of fields, of the arbiter, and of the chosen table (spec/30_encoding.md rules R51 to R57, spec/40_cycle_dispatch.md rules R74 to R77). -/

namespace Sys2Proof

/-! ## Words and their fields -/

theorem append_opcode_address (w : Word) : opcodeOf w ++ addressOf w = w :=
  (BitVec.extractLsb'_append_extractLsb'_eq_extractLsb' rfl).trans BitVec.extractLsb'_eq_self

theorem jWord_fields (w : Word) : jWord (opcodeOf w) (addressOf w) = w := append_opcode_address w

theorem iWord_fields (w : Word) : iWord (opcodeOf w) (rsOf w) (rtOf w) (immOf w) = w := by
  have h1 : opcodeOf w ++ rsOf w = w.extractLsb' 21 11 :=
    BitVec.extractLsb'_append_extractLsb'_eq_extractLsb' rfl
  have h2 : w.extractLsb' 21 11 ++ rtOf w = w.extractLsb' 16 16 :=
    BitVec.extractLsb'_append_extractLsb'_eq_extractLsb' rfl
  have h3 : w.extractLsb' 16 16 ++ immOf w = w :=
    (BitVec.extractLsb'_append_extractLsb'_eq_extractLsb' rfl).trans BitVec.extractLsb'_eq_self
  show opcodeOf w ++ rsOf w ++ rtOf w ++ immOf w = w
  rw [h1, h2, h3]

theorem rWord_fields (w : Word) (h : opcodeOf w = 0#6) :
    rWord (functOf w) (rsOf w) (rtOf w) (rdOf w) (shamtOf w) = w := by
  have h1 : opcodeOf w ++ rsOf w = w.extractLsb' 21 11 :=
    BitVec.extractLsb'_append_extractLsb'_eq_extractLsb' rfl
  have h2 : w.extractLsb' 21 11 ++ rtOf w = w.extractLsb' 16 16 :=
    BitVec.extractLsb'_append_extractLsb'_eq_extractLsb' rfl
  have h3 : w.extractLsb' 16 16 ++ rdOf w = w.extractLsb' 11 21 :=
    BitVec.extractLsb'_append_extractLsb'_eq_extractLsb' rfl
  have h4 : w.extractLsb' 11 21 ++ shamtOf w = w.extractLsb' 6 26 :=
    BitVec.extractLsb'_append_extractLsb'_eq_extractLsb' rfl
  have h5 : w.extractLsb' 6 26 ++ functOf w = w :=
    (BitVec.extractLsb'_append_extractLsb'_eq_extractLsb' rfl).trans BitVec.extractLsb'_eq_self
  show 0#6 ++ rsOf w ++ rtOf w ++ rdOf w ++ shamtOf w ++ functOf w = w
  rw [← h, h1, h2, h3, h4, h5]

section Fields

variable (op fn : BitVec 6) (rs rt rd : RegIdx) (sh : Shamt) (imm : Imm) (addr : JumpAddr)

@[simp] theorem opcodeOf_jWord : opcodeOf (jWord op addr) = op := BitVec.extractLsb'_append_eq_left
@[simp] theorem addressOf_jWord : addressOf (jWord op addr) = addr := BitVec.extractLsb'_append_eq_right

@[simp] theorem immOf_iWord : immOf (iWord op rs rt imm) = imm := BitVec.extractLsb'_append_eq_right
@[simp] theorem rtOf_iWord : rtOf (iWord op rs rt imm) = rt := by
  simp only [rtOf, iWord]
  rw [BitVec.extractLsb'_append_eq_of_le (by omega)]
  exact BitVec.extractLsb'_append_eq_right
@[simp] theorem rsOf_iWord : rsOf (iWord op rs rt imm) = rs := by
  simp only [rsOf, iWord]
  rw [BitVec.extractLsb'_append_eq_of_le (by omega), BitVec.extractLsb'_append_eq_of_le (by omega)]
  exact BitVec.extractLsb'_append_eq_right
@[simp] theorem opcodeOf_iWord : opcodeOf (iWord op rs rt imm) = op := by
  simp only [opcodeOf, iWord]
  rw [BitVec.extractLsb'_append_eq_of_le (by omega), BitVec.extractLsb'_append_eq_of_le (by omega)]
  exact BitVec.extractLsb'_append_eq_left

@[simp] theorem functOf_rWord : functOf (rWord fn rs rt rd sh) = fn := BitVec.extractLsb'_append_eq_right
@[simp] theorem shamtOf_rWord : shamtOf (rWord fn rs rt rd sh) = sh := by
  simp only [shamtOf, rWord]
  rw [BitVec.extractLsb'_append_eq_of_le (by omega)]
  exact BitVec.extractLsb'_append_eq_right
@[simp] theorem rdOf_rWord : rdOf (rWord fn rs rt rd sh) = rd := by
  simp only [rdOf, rWord]
  rw [BitVec.extractLsb'_append_eq_of_le (by omega), BitVec.extractLsb'_append_eq_of_le (by omega)]
  exact BitVec.extractLsb'_append_eq_right
@[simp] theorem rtOf_rWord : rtOf (rWord fn rs rt rd sh) = rt := by
  simp only [rtOf, rWord]
  rw [BitVec.extractLsb'_append_eq_of_le (by omega), BitVec.extractLsb'_append_eq_of_le (by omega),
    BitVec.extractLsb'_append_eq_of_le (by omega)]
  exact BitVec.extractLsb'_append_eq_right
@[simp] theorem rsOf_rWord : rsOf (rWord fn rs rt rd sh) = rs := by
  simp only [rsOf, rWord]
  rw [BitVec.extractLsb'_append_eq_of_le (by omega), BitVec.extractLsb'_append_eq_of_le (by omega),
    BitVec.extractLsb'_append_eq_of_le (by omega), BitVec.extractLsb'_append_eq_of_le (by omega)]
  exact BitVec.extractLsb'_append_eq_right
@[simp] theorem opcodeOf_rWord : opcodeOf (rWord fn rs rt rd sh) = 0#6 := by
  simp only [opcodeOf, rWord]
  rw [BitVec.extractLsb'_append_eq_of_le (by omega), BitVec.extractLsb'_append_eq_of_le (by omega),
    BitVec.extractLsb'_append_eq_of_le (by omega), BitVec.extractLsb'_append_eq_of_le (by omega)]
  exact BitVec.extractLsb'_append_eq_left

end Fields

/-! ## The two kinds of mask in R55 -/

/-- A row whose mask is the opcode field matches on the opcode alone. -/
theorem hits_opcode (op : BitVec 6) (w : Word) :
    MaskMatch.hits ⟨op ++ 0#26, 0xFC000000#32⟩ w = (opcodeOf w == op) := by
  have h : w &&& 0xFC000000#32 = opcodeOf w ++ 0#26 := by
    conv_lhs => rw [← append_opcode_address w]
    show (opcodeOf w ++ addressOf w) &&& (BitVec.allOnes 6 ++ 0#26) = _
    rw [BitVec.and_append, BitVec.and_allOnes, BitVec.and_zero]
  rw [MaskMatch.hits, h, Bool.eq_iff_iff, beq_iff_eq, beq_iff_eq]
  exact BitVec.append_left_inj _

/-- A row whose mask is the opcode and the funct field matches on these two. -/
theorem hits_funct (fn : BitVec 6) (w : Word) :
    MaskMatch.hits ⟨0#6 ++ 0#20 ++ fn, 0xFC00003F#32⟩ w = (opcodeOf w == 0#6 && functOf w == fn) := by
  have hw : opcodeOf w ++ w.extractLsb' 6 20 ++ functOf w = w := by
    have h1 : opcodeOf w ++ w.extractLsb' 6 20 = w.extractLsb' 6 26 :=
      BitVec.extractLsb'_append_extractLsb'_eq_extractLsb' rfl
    rw [h1]
    exact (BitVec.extractLsb'_append_extractLsb'_eq_extractLsb' rfl).trans BitVec.extractLsb'_eq_self
  have h : w &&& 0xFC00003F#32 = opcodeOf w ++ 0#20 ++ functOf w := by
    conv_lhs => rw [← hw]
    show (opcodeOf w ++ w.extractLsb' 6 20 ++ functOf w) &&&
      (BitVec.allOnes 6 ++ 0#20 ++ BitVec.allOnes 6) = _
    rw [BitVec.and_append, BitVec.and_append, BitVec.and_allOnes, BitVec.and_allOnes, BitVec.and_zero]
  rw [MaskMatch.hits, h, Bool.eq_iff_iff]
  simp only [beq_iff_eq, Bool.and_eq_true]
  constructor
  · intro e
    have e1 := congrArg (BitVec.extractLsb' 6 26) e
    have e2 := congrArg (BitVec.extractLsb' 0 6) e
    rw [BitVec.extractLsb'_append_eq_left, BitVec.extractLsb'_append_eq_left] at e1
    rw [BitVec.extractLsb'_append_eq_right, BitVec.extractLsb'_append_eq_right] at e2
    exact ⟨(BitVec.append_left_inj _).1 e1, e2⟩
  · rintro ⟨ho, hf⟩; rw [ho, hf]

/-! ## The chosen table -/

/-- What the 19 rows of R55 select, from the opcode and funct fields. -/
def rowOf (op fn : BitVec 6) : Handler :=
  if op = 0x03#6 then .jal else if op = 0x02#6 then .j else if op = 0x20#6 then .lb
  else if op = 0x28#6 then .sb else if op = 0x0A#6 then .slti else if op = 0x07#6 then .bgtz
  else if op = 0x04#6 then .beq else if op = 0x05#6 then .bne else if op = 0x2B#6 then .sw
  else if op = 0x23#6 then .lw else if op = 0x09#6 then .addiu else if op = 0x08#6 then .addi
  else if op = 0x0D#6 then .ori else if op = 0x0F#6 then .lui
  else if op = 0#6 ∧ fn = 0x08#6 then .jr else if op = 0#6 ∧ fn = 0x23#6 then .subu
  else if op = 0#6 ∧ fn = 0x22#6 then .sub else if op = 0#6 ∧ fn = 0x21#6 then .addu
  else if op = 0#6 ∧ fn = 0x20#6 then .add else .halt

/-- What holds of each row under its opcode and funct, and of `halt`, holds of the row selected. -/
theorem rowOf_elim (P : Handler → Prop) (op fn : BitVec 6)
    (jal : op = 0x03#6 → P .jal) (j : op = 0x02#6 → P .j) (lb : op = 0x20#6 → P .lb)
    (sb : op = 0x28#6 → P .sb) (slti : op = 0x0A#6 → P .slti) (bgtz : op = 0x07#6 → P .bgtz)
    (beq : op = 0x04#6 → P .beq) (bne : op = 0x05#6 → P .bne) (sw : op = 0x2B#6 → P .sw)
    (lw : op = 0x23#6 → P .lw) (addiu : op = 0x09#6 → P .addiu) (addi : op = 0x08#6 → P .addi)
    (ori : op = 0x0D#6 → P .ori) (lui : op = 0x0F#6 → P .lui) (jr : op = 0#6 ∧ fn = 0x08#6 → P .jr)
    (subu : op = 0#6 ∧ fn = 0x23#6 → P .subu) (sub : op = 0#6 ∧ fn = 0x22#6 → P .sub)
    (addu : op = 0#6 ∧ fn = 0x21#6 → P .addu) (add : op = 0#6 ∧ fn = 0x20#6 → P .add)
    (halt : P .halt) : P (rowOf op fn) := by
  have pick {p : Prop} [Decidable p] {a b : Handler} (ha : p → P a) (hb : P b) :
      P (if p then a else b) := by split <;> [exact ha ‹_›; exact hb]
  unfold rowOf
  exact pick jal (pick j (pick lb (pick sb (pick slti (pick bgtz (pick beq (pick bne (pick sw
    (pick lw (pick addiu (pick addi (pick ori (pick lui (pick jr (pick subu (pick sub (pick addu
    (pick add halt))))))))))))))))))

/-- A row of R55 under opcode 0. -/
def functRow (fn : BitVec 6) (h : Handler) : Entry := ⟨⟨0#6 ++ 0#20 ++ fn, 0xFC00003F#32⟩, h⟩

/-- A row of R55 with an opcode of its own. -/
def opcodeRow (op : BitVec 6) (h : Handler) : Entry := ⟨⟨op ++ 0#26, 0xFC000000#32⟩, h⟩

/-- The 19 rows, from the opcode and funct columns of R55. -/
theorem specEnc_rows : List.zipWith Entry.mk specEnc.toList Handler.real =
    [functRow 0x20#6 .add, functRow 0x21#6 .addu, functRow 0x22#6 .sub, functRow 0x23#6 .subu,
      functRow 0x08#6 .jr, opcodeRow 0x0F#6 .lui, opcodeRow 0x0D#6 .ori, opcodeRow 0x08#6 .addi,
      opcodeRow 0x09#6 .addiu, opcodeRow 0x23#6 .lw, opcodeRow 0x2B#6 .sw, opcodeRow 0x05#6 .bne,
      opcodeRow 0x04#6 .beq, opcodeRow 0x07#6 .bgtz, opcodeRow 0x0A#6 .slti, opcodeRow 0x28#6 .sb,
      opcodeRow 0x20#6 .lb, opcodeRow 0x02#6 .j, opcodeRow 0x03#6 .jal] := by
  decide

/-- The arbiter over the numbers of R55, with or without a `li` entry. -/
theorem arbiter_specEnc {c : Config} (h : c.enc = specEnc) (w : Word) :
    arbiter c.table w = if liWord c.liEntry w then .li else rowOf (opcodeOf w) (functOf w) := by
  have key : arbiter (List.zipWith Entry.mk c.enc.toList Handler.real) w =
      rowOf (opcodeOf w) (functOf w) := by
    rw [h, specEnc_rows]
    simp only [arbiter, List.foldl, functRow, opcodeRow, hits_opcode, hits_funct, beq_iff_eq,
      Bool.and_eq_true]
    rfl
  unfold Config.table arbiter
  rw [List.foldl_append]
  change List.foldl _ (arbiter _ w) _ = _
  rw [key]
  cases hl : c.liEntry with
  | none => simp [liWord]
  | some m => simp [liWord, MaskMatch.hits]

/-- A word that matches a row of R55 decodes through that row's handler. -/
theorem decode_of_row {e : Entry} (he : e ∈ List.zipWith Entry.mk specEnc.toList Handler.real)
    {w : Word} (hw : e.key.hits w = true) : decode w = e.handler.view w := by
  have hd : decode w = (rowOf (opcodeOf w) (functOf w)).view w := by
    rw [decode, decodeWith, arbiter_specEnc rfl]; rfl
  suffices h : rowOf (opcodeOf w) (functOf w) = e.handler by rw [hd, h]
  rw [specEnc_rows] at he
  have op {o : BitVec 6} {h : Handler} (hw : (opcodeRow o h).key.hits w = true) : opcodeOf w = o := by
    simpa using (hits_opcode o w).symm.trans hw
  have fn {f : BitVec 6} {h : Handler} (hw : (functRow f h).key.hits w = true) :
      opcodeOf w = 0#6 ∧ functOf w = f := by
    simpa using (hits_funct f w).symm.trans hw
  simp only [List.mem_cons, List.not_mem_nil, or_false] at he
  rcases he with rfl | rfl | rfl | rfl | rfl | rfl | rfl | rfl | rfl | rfl | rfl | rfl | rfl | rfl |
    rfl | rfl | rfl | rfl | rfl
  all_goals first
    | (rw [(fn hw).1, (fn hw).2]; rfl)
    | (rw [op hw]; rfl)

end Sys2Proof
end

