-- ==== Sys2Proof/Laws/PerInstr.lean ====
section
/-! SUPPORT. The family RowOfEncoding, one lemma per constructor of Instr: the opcode and funct fields of an encoded instruction select the table row it stands for (spec/30_encoding.md rule R55). -/

namespace Sys2Proof.Laws.RowOfEncoding

/-- The word of a term that is well formed without a `li` entry selects the term's own handler. -/
def Statement (i : Instr) : Prop :=
  i.wf none = true → rowOf (opcodeOf (encode i)) (functOf (encode i)) = i.handler

theorem add (rs rt rd : RegIdx) (shamt : Shamt) : Statement (.add rs rt rd shamt) := by
  intro _; simp [encode, rowOf, Instr.handler]
theorem addu (rs rt rd : RegIdx) (shamt : Shamt) : Statement (.addu rs rt rd shamt) := by
  intro _; simp [encode, rowOf, Instr.handler]
theorem sub (rs rt rd : RegIdx) (shamt : Shamt) : Statement (.sub rs rt rd shamt) := by
  intro _; simp [encode, rowOf, Instr.handler]
theorem subu (rs rt rd : RegIdx) (shamt : Shamt) : Statement (.subu rs rt rd shamt) := by
  intro _; simp [encode, rowOf, Instr.handler]
theorem jr (rs rt rd : RegIdx) (shamt : Shamt) : Statement (.jr rs rt rd shamt) := by
  intro _; simp [encode, rowOf, Instr.handler]
theorem lui (rs rt : RegIdx) (imm : Imm) : Statement (.lui rs rt imm) := by
  intro _; simp [encode, rowOf, Instr.handler]
theorem ori (rs rt : RegIdx) (imm : Imm) : Statement (.ori rs rt imm) := by
  intro _; simp [encode, rowOf, Instr.handler]
theorem addi (rs rt : RegIdx) (imm : Imm) : Statement (.addi rs rt imm) := by
  intro _; simp [encode, rowOf, Instr.handler]
theorem addiu (rs rt : RegIdx) (imm : Imm) : Statement (.addiu rs rt imm) := by
  intro _; simp [encode, rowOf, Instr.handler]
theorem lw (rs rt : RegIdx) (imm : Imm) : Statement (.lw rs rt imm) := by
  intro _; simp [encode, rowOf, Instr.handler]
theorem sw (rs rt : RegIdx) (imm : Imm) : Statement (.sw rs rt imm) := by
  intro _; simp [encode, rowOf, Instr.handler]
theorem bne (rs rt : RegIdx) (imm : Imm) : Statement (.bne rs rt imm) := by
  intro _; simp [encode, rowOf, Instr.handler]
theorem beq (rs rt : RegIdx) (imm : Imm) : Statement (.beq rs rt imm) := by
  intro _; simp [encode, rowOf, Instr.handler]
theorem bgtz (rs rt : RegIdx) (imm : Imm) : Statement (.bgtz rs rt imm) := by
  intro _; simp [encode, rowOf, Instr.handler]
theorem slti (rs rt : RegIdx) (imm : Imm) : Statement (.slti rs rt imm) := by
  intro _; simp [encode, rowOf, Instr.handler]
theorem sb (rs rt : RegIdx) (imm : Imm) : Statement (.sb rs rt imm) := by
  intro _; simp [encode, rowOf, Instr.handler]
theorem lb (rs rt : RegIdx) (imm : Imm) : Statement (.lb rs rt imm) := by
  intro _; simp [encode, rowOf, Instr.handler]
theorem j (address : JumpAddr) : Statement (.j address) := by
  intro _; simp [encode, rowOf, Instr.handler]
theorem jal (address : JumpAddr) : Statement (.jal address) := by
  intro _; simp [encode, rowOf, Instr.handler]
/-- No term of `li` is well formed without a `li` entry. -/
theorem li (word : Word) : Statement (.li word) := by
  intro h; simp [Instr.wf, liWord] at h
/-- A well-formed `halt` term holds a word that R61 lists as unmatched. -/
theorem halt (word : Word) : Statement (.halt word) := by
  intro h
  have hw : realWord word = false := by simpa [Instr.wf, liWord] using h
  have key : ∀ op fn : BitVec 6,
      (realOpcodes.contains op || (op == 0#6 && realFuncts.contains fn)) = false →
        rowOf op fn = .halt := by
    intro op fn h
    simp [realOpcodes, realFuncts] at h
    obtain ⟨⟨h1, h2, h3, h4, h5, h6, h7, h8, h9, h10, h11, h12, h13, h14⟩, hf⟩ := h
    simp only [rowOf, h1, h2, h3, h4, h5, h6, h7, h8, h9, h10, h11, h12, h13, h14, if_false]
    by_cases h0 : op = 0#6
    · simp [h0, hf h0]
    · simp [h0]
  exact key _ _ hw

end Sys2Proof.Laws.RowOfEncoding
end

