-- ==== Sys2Proof/Laws/Step.lean ====
section
/-! SUPPORT. Everything a meaning and a step can do, said once (spec/40_cycle_dispatch.md rules R70, R71, R78, R81). Later proofs take a step apart with these and never unfold `step`. -/

namespace Sys2Proof.Machine

/-! ## Execute -/

/-- The data address of a load or store stops execute where it is outside the memory contract. -/
theorem exec_of_not_admits {i : Instr} {rs : RegIdx} {s : State} (hb : dataBase i = some rs)
    (h : admits s.config (s.x rs) = false) : exec i s = stopAt s.config (s.x rs) := by
  cases i <;> simp only [dataBase, Option.some.injEq, reduceCtorEq] at hb <;> subst hb <;>
    simp only [exec, execLw, execLb, execSw, execSb, State.memRead_of_not_admits h,
      State.memWrite_of_not_admits _ h, andThen_stopAt]

/-- What execute leaves where it completes: one register write or one word placed, a next PC, and `RUN`
kept or cleared. -/
theorem exec_next_cases {i : Instr} {s t : State} (h : exec i s = .next t) :
    (∃ rd v, destOf i = some rd ∧ i.handler ≠ .jal ∧ t = s.setX rd v) ∨
    (∃ p, destOf i = none ∧ dataBase i = none ∧ i.handler ≠ .halt ∧ t = s.setPc p) ∨
    (∃ p, destOf i = some 31#5 ∧ i.handler = .jal ∧ t = (s.setX 31#5 (s.cur.pc + 4#32)).setPc p) ∨
    (∃ rs v, destOf i = none ∧ dataBase i = some rs ∧ isStore i = true ∧ t = s.placeWord (s.x rs) v) ∨
    (i.handler = .halt ∧ t = s.haltEvent) := by
  have stay : s = s.setPc s.nxt.pc := rfl
  cases i with
  | add | addu | sub | subu | lui | ori | addi | addiu | slti =>
    exact .inl ⟨_, _, rfl, by simp [Instr.handler], (Host.Outcome.next.inj h).symm⟩
  | lw | lb =>
    obtain ⟨w, -, hw⟩ := andThen_eq_next.1 h
    exact .inl ⟨_, _, rfl, by simp [Instr.handler], (Host.Outcome.next.inj hw).symm⟩
  | jr | j =>
    exact .inr (.inl ⟨_, rfl, rfl, by simp [Instr.handler], (Host.Outcome.next.inj h).symm⟩)
  | li => exact .inr (.inl ⟨_, rfl, rfl, by simp [Instr.handler], (Host.Outcome.next.inj h).symm.trans stay⟩)
  | beq | bne | bgtz =>
    refine .inr (.inl ?_)
    have ht := (Host.Outcome.next.inj h).symm
    unfold branchIf at ht
    split at ht
    · exact ⟨_, rfl, rfl, by simp [Instr.handler], ht⟩
    · exact ⟨_, rfl, rfl, by simp [Instr.handler], ht.trans stay⟩
  | jal => exact .inr (.inr (.inl ⟨_, rfl, rfl, (Host.Outcome.next.inj h).symm⟩))
  | sw => exact .inr (.inr (.inr (.inl ⟨_, _, rfl, rfl, rfl, (State.memWrite_eq_next.1 h).2⟩)))
  | sb =>
    obtain ⟨w, -, hw⟩ := andThen_eq_next.1 h
    exact .inr (.inr (.inr (.inl ⟨_, _, rfl, rfl, rfl, (State.memWrite_eq_next.1 hw).2⟩)))
  | halt => exact .inr (.inr (.inr (.inr ⟨rfl, (Host.Outcome.next.inj h).symm⟩)))

/-! ## Step -/

theorem step_of_halted {s : State} (h : s.run = false) : step s = .next s := by simp [step, h]

/-- A running step whose fetch is inside the contract is execute of the decoded word, committed. -/
theorem step_of_admits {s : State} (hr : s.run = true) (h : admits s.config s.cur.pc = true) :
    step s = andThen (exec (nextInstr s) (s.staged (fetchedWord s)).select) fun t => .next t.commit := by
  simp only [step, hr, if_true, State.fetch_of_admits h, andThen_next, State.instr_of_staged]
  rfl

theorem step_of_not_admits {s : State} (hr : s.run = true) (h : admits s.config s.cur.pc = false) :
    step s = stopAt s.config s.cur.pc := by
  simp only [step, hr, if_true, State.fetch_of_not_admits h, andThen_stopAt]

/-- Everything a step that answers a next state can have done. -/
theorem step_next_cases {s t : State} (h : step s = .next t) :
    (s.run = false ∧ t = s) ∨
    (s.run = true ∧ admits s.config s.cur.pc = true ∧
      ∃ u, exec (nextInstr s) (s.staged (fetchedWord s)).select = .next u ∧ t = u.commit) := by
  cases hr : s.run
  · rw [step_of_halted hr] at h
    exact .inl ⟨rfl, by simpa using h.symm⟩
  · right
    cases ha : admits s.config s.cur.pc
    · rw [step_of_not_admits hr ha] at h
      exact absurd h (stopAt_ne_next t)
    · rw [step_of_admits hr ha, andThen_eq_next] at h
      obtain ⟨u, hu, ht⟩ := h
      exact ⟨rfl, rfl, u, hu, by simpa using ht.symm⟩

end Sys2Proof.Machine
end

