-- ==== Sys2Proof/Tests/Slice0.lean ====
section
/-! SUPPORT. Tests. Every expected result is taken from spec/95_test_vectors.md (V and S numbers) or from an example of the rule named; nothing here is the model's own answer. Part 1: ill-formed terms that WellFormed refuses. Part 2: words decoded. Part 3: single steps. Part 4: for each statement with hypotheses, values that meet them. -/

namespace Sys2Proof.Tests

open Sys2Proof.Machine

/-! ## Part 1: well-formedness smoke tests -/

/-- A `li` entry of the tests' own, disjoint from the table: opcode 0x3F. -/
def liTop : MaskMatch := ⟨0xFC000000, 0xFC000000⟩

/-- The chosen parameters with that entry. -/
def withLi : Config := { Config.chosen with liEntry := some liTop }

theorem test_wf_halt_refuses_table_word : (Instr.halt 0x012A4020).wf none = false := by decide
theorem test_wf_halt_refuses_table_word_by_opcode : (Instr.halt 0x3C081234).wf none = false := by decide
theorem test_wf_halt_refuses_li_word : (Instr.halt 0xFC000001).wf (some liTop) = false := by decide
theorem test_wf_halt_accepts_zero : (Instr.halt 0).wf none = true := by decide
theorem test_wf_li_refused_without_entry : (Instr.li 0xFC000001).wf none = false := by decide
theorem test_wf_li_refuses_other_word : (Instr.li 0x3C081234).wf (some liTop) = false := by decide
theorem test_wf_config_refuses_pattern_outside_mask :
    Config.wf { Config.chosen with liEntry := some ⟨0xFC000001, 0xFC000000⟩ } = false := by decide
theorem test_wf_config_refuses_overlapping_li :
    Config.wf { Config.chosen with liEntry := some ⟨0x24000000, 0xFFE00000⟩ } = false := by decide
theorem test_wf_config_refuses_region_past_the_top :
    Config.wf { Config.chosen with memRegions := [⟨0xFFFFFFFF, 2⟩] } = false := by decide
theorem test_wf_config_chosen : Config.wf Config.chosen = true := by decide
theorem test_wf_config_with_li : Config.wf withLi = true := by decide

/-! ## Part 2: decoding; each word is written out from R51 to R53 and R55, field by field -/

/-- R90: add $8,$9,$10 = 012A4020. -/
theorem test_decode_add : decode 0b000000_01001_01010_01000_00000_100000 = .add 9 10 8 0 := by decide
/-- V0. -/
theorem test_decode_add_ignored_bits : decode 0x03FFFFE0 = .add 31 31 31 31 := by decide
/-- R91: 00221821. -/
theorem test_decode_addu : decode 0b000000_00001_00010_00011_00000_100001 = .addu 1 2 3 0 := by decide
/-- R92: 00221822. -/
theorem test_decode_sub : decode 0b000000_00001_00010_00011_00000_100010 = .sub 1 2 3 0 := by decide
/-- R93: 00221823. -/
theorem test_decode_subu : decode 0b000000_00001_00010_00011_00000_100011 = .subu 1 2 3 0 := by decide
/-- R94: 03E00008. -/
theorem test_decode_jr : decode 0b000000_11111_00000_00000_00000_001000 = .jr 31 0 0 0 := by decide
/-- V2.3. -/
theorem test_decode_jr_ignored_fields : decode 0x03E938C8 = .jr 31 9 7 3 := by decide
/-- R100: 3C081234. -/
theorem test_decode_lui : decode 0b001111_00000_01000_0001001000110100 = .lui 0 8 0x1234 := by decide
/-- R101: 350900F0. -/
theorem test_decode_ori : decode 0b001101_01000_01001_0000000011110000 = .ori 8 9 0x00F0 := by decide
/-- R102: 2022FFFF. -/
theorem test_decode_addi : decode 0b001000_00001_00010_1111111111111111 = .addi 1 2 0xFFFF := by decide
/-- R103: 24048000. -/
theorem test_decode_addiu : decode 0b001001_00000_00100_1000000000000000 = .addiu 0 4 0x8000 := by decide
/-- R104: 2885FFFF. -/
theorem test_decode_slti : decode 0b001010_00100_00101_1111111111111111 = .slti 4 5 0xFFFF := by decide
/-- R110: 8D0B0008. -/
theorem test_decode_lw : decode 0b100011_01000_01011_0000000000001000 = .lw 8 11 8 := by decide
/-- R111: AD090000. -/
theorem test_decode_sw : decode 0b101011_01000_01001_0000000000000000 = .sw 8 9 0 := by decide
/-- R112: 810C0000. -/
theorem test_decode_lb : decode 0b100000_01000_01100_0000000000000000 = .lb 8 12 0 := by decide
/-- R113: A10A0000. -/
theorem test_decode_sb : decode 0b101000_01000_01010_0000000000000000 = .sb 8 10 0 := by decide
/-- R120: 10220002. -/
theorem test_decode_beq : decode 0b000100_00001_00010_0000000000000010 = .beq 1 2 2 := by decide
/-- R121: 1420FFFE. -/
theorem test_decode_bne : decode 0b000101_00001_00000_1111111111111110 = .bne 1 0 0xFFFE := by decide
/-- R122: 1CC00002. -/
theorem test_decode_bgtz : decode 0b000111_00110_00000_0000000000000010 = .bgtz 6 0 2 := by decide
/-- R130: 08100006. -/
theorem test_decode_j : decode 0b000010_00000100000000000000000110 = .j 0x0100006 := by decide
/-- R131: 0C100004. -/
theorem test_decode_jal : decode 0b000011_00000100000000000000000100 = .jal 0x0100004 := by decide
/-- R61: the all-zero word. -/
theorem test_decode_halt_zero_word : decode 0x00000000 = .halt 0 := by decide
/-- V0. -/
theorem test_decode_halt_all_ones : decode 0xFFFFFFFF = .halt 0xFFFFFFFF := by decide
/-- V0: funct 09. -/
theorem test_decode_halt_next_to_jr : decode 0x00000009 = .halt 9 := by decide
/-- R58, R140: a word of the `li` entry, only under a configuration that has one. -/
theorem test_decode_li : decodeWith withLi 0xFC000001 = .li 0xFC000001 := by decide
/-- R58, R76: an overlapping `li` entry wins, because it is last. -/
theorem test_decode_overlapping_li_wins :
    decodeWith { Config.chosen with liEntry := some ⟨0x24000000, 0xFFE00000⟩ } 0x24048000 = .li 0x24048000 := by
  decide
/-- Part 4 of the vectors: 34010005 lies as 05 00 01 34 in little-endian memory. -/
theorem test_decode_bytes :
    decodeBytes Config.chosen [0x05, 0x00, 0x01, 0x34, 0xAA] = .ok (.ori 0 1 5, [0xAA]) := by decide
/-- Part 4: the same word's big-endian image. -/
theorem test_decode_bytes_big :
    decodeBytes { Config.chosen with endian := .big } [0x34, 0x01, 0x00, 0x05] = .ok (.ori 0 1 5, []) := by
  decide
theorem test_decode_bytes_truncated :
    decodeBytes Config.chosen [0x05, 0x00, 0x01] = .error (.truncated 3) := by decide
theorem test_decode_table_word : decodeTableWord 32 0x012A4020 = some (.add 9 10 8 0) := by decide
/-- R62: the assembler's fields, `addi $2,$1,-1` and the count of `bne` in program P1. -/
theorem test_asm_addi : encode (asmAddi 2 1 0xFFFF) = 0x2022FFFF := by decide
theorem test_asm_branch_count : asmBranchCount 0x00400008 0x00400010 = 0xFFFE := by decide
theorem test_asm_jal : encode (asmJal 0x00400010) = 0x0C100004 := by decide

/-! ## Part 3: single steps -/

/-- The start state of a vector: zero registers but those listed, the words listed in memory, `word` at `pc`. -/
def launch (regs : List (RegIdx × Word)) (words : List (Word × Word)) (pc word : Word) : State :=
  let cur := regs.foldl (fun c p => c.write p.1 p.2) { State.reset.cur with pc := pc }
  let s := words.foldl (fun s p => s.placeWord p.1 p.2) { State.reset with cur := cur }
  s.placeWord pc word

/-- The registers listed and the PC after one step. -/
def after (s : State) (rs : List RegIdx) : Option (List Word × Word) :=
  match step s with
  | .next t => some (rs.map t.x, t.cur.pc)
  | _ => none

/-- The word at an address after one step. -/
def wordAfter (s : State) (a : Word) : Option Word :=
  match step s with
  | .next t => some (t.wordAt a)
  | _ => none

/-- V1.2. -/
theorem test_add_signed_overflow_wraps :
    after (launch [(1, 0x7FFFFFFF), (2, 1)] [] 0x00400000 0x00221820) [3] =
      some ([0x80000000], 0x00400004) := by decide
/-- V1.5. -/
theorem test_add_dest_is_both_sources :
    after (launch [(1, 0x40000001)] [] 0x00400000 0x00210820) [1] =
      some ([0x80000002], 0x00400004) := by decide
/-- V1.8. -/
theorem test_addu_carry_dropped :
    after (launch [(1, 0x80000000), (3, 9)] [] 0x00400000 0x00211821) [3] =
      some ([0], 0x00400004) := by decide
/-- V1.9. -/
theorem test_sub_operand_order :
    after (launch [(1, 5), (2, 7)] [] 0x00400000 0x00221822) [3] =
      some ([0xFFFFFFFE], 0x00400004) := by decide
/-- V1.10. -/
theorem test_sub_signed_overflow_wraps :
    after (launch [(1, 0x80000000), (2, 1)] [] 0x00400000 0x00221822) [3] =
      some ([0x7FFFFFFF], 0x00400004) := by decide
/-- V1.14. -/
theorem test_subu_borrow_dropped :
    after (launch [(2, 1)] [] 0x00400000 0x00021823) [3] =
      some ([0xFFFFFFFF], 0x00400004) := by decide
/-- V1.4, S1. -/
theorem test_add_to_zero_discards :
    after (launch [(1, 7), (2, 9)] [] 0x00400000 0x00220020) [0, 1, 2] =
      some ([0, 7, 9], 0x00400004) := by decide
/-- V2.3. -/
theorem test_jr_ignores_fields :
    after (launch [(31, 0x12345678), (7, 1), (9, 2)] [] 0x00400000 0x03E938C8) [7, 9] =
      some ([1, 2], 0x12345678) := by decide
/-- V2.4. -/
theorem test_jr_misaligned_target :
    after (launch [(5, 0x00400002)] [] 0x00400000 0x00A00008) [] =
      some ([], 0x00400002) := by decide
/-- V3.4. -/
theorem test_lui_ignores_rs :
    after (launch [(9, 0xFFFFFFFF)] [] 0x00400000 0x3D280001) [8] =
      some ([0x00010000], 0x00400004) := by decide
/-- V3.7. -/
theorem test_ori_upper_half_passes :
    after (launch [(8, 0xABCD0000)] [] 0x00400000 0x3509FFFF) [9] =
      some ([0xABCDFFFF], 0x00400004) := by decide
/-- V3.11. -/
theorem test_addi_negative :
    after (launch [(1, 0x00010000)] [] 0x00400000 0x20228000) [2] =
      some ([0x00008000], 0x00400004) := by decide
/-- V3.12. -/
theorem test_addi_no_trap :
    after (launch [(1, 0x7FFFFFFF)] [] 0x00400000 0x20220001) [2] =
      some ([0x80000000], 0x00400004) := by decide
/-- V3.17. -/
theorem test_addiu_is_or :
    after (launch [(1, 5)] [] 0x00400000 0x24220003) [2] =
      some ([7], 0x00400004) := by decide
/-- V3.19. -/
theorem test_addiu_zero_extends :
    after (launch [(29, 0x7FFFF000)] [] 0x00400000 0x27BDFFF8) [29] =
      some ([0x7FFFFFF8], 0x00400004) := by decide
/-- V3.25. -/
theorem test_slti_unsigned :
    after (launch [(4, 0xFFFFFFFF), (5, 9)] [] 0x00400000 0x28850000) [5] =
      some ([0], 0x00400004) := by decide
/-- V3.22. -/
theorem test_slti_raw_immediate :
    after (launch [(4, 0x00008000)] [] 0x00400000 0x2885FFFF) [5] =
      some ([1], 0x00400004) := by decide
/-- V4.1. -/
theorem test_lw_ignores_displacement :
    after (launch [(8, 0x10000000)] [(0x10000000, 0xAABBCCEE), (0x10000008, 0x11111111)] 0x00400000 0x8D0B0008) [11] =
      some ([0xAABBCCEE], 0x00400004) := by decide
/-- V4.4. -/
theorem test_lw_own_word :
    after (launch [(8, 0x00400000)] [] 0x00400000 0x8D090000) [9] =
      some ([0x8D090000], 0x00400004) := by decide
/-- V4.7. -/
theorem test_sw_ignores_displacement :
    wordAfter (launch [(8, 0x10000000), (9, 0xAABBCCDD)] [] 0x00400000 0xAD097FFC) 0x10000000 = some 0xAABBCCDD := by decide
/-- V4.8. -/
theorem test_sw_stores_zero_register :
    wordAfter (launch [(8, 0x10000000)] [(0x10000000, 0x55)] 0x00400000 0xAD000000) 0x10000000 = some 0 := by decide
/-- V4.11. -/
theorem test_lb_zero_extends :
    after (launch [(8, 0x10000000)] [(0x10000000, 0xFFFFFF80)] 0x00400000 0x810C0003) [12] =
      some ([0x80], 0x00400004) := by decide
/-- V4.12. -/
theorem test_lb_low_byte_only :
    after (launch [(8, 0x10000000), (12, 7)] [(0x10000000, 0xFFFFFF00)] 0x00400000 0x810C0000) [12] =
      some ([0], 0x00400004) := by decide
/-- V4.14. -/
theorem test_sb_keeps_upper_bytes :
    wordAfter (launch [(8, 0x10000000), (10, 0x12345678)] [(0x10000000, 0xAABBCCDD)] 0x00400000 0xA10A0001) 0x10000000 = some 0xAABBCC78 := by decide
/-- V4.16. -/
theorem test_sb_upper_source_bits_ignored :
    wordAfter (launch [(8, 0x10000000), (10, 0x000001FF)] [(0x10000000, 0)] 0x00400000 0xA10A0000) 0x10000000 = some 0x000000FF := by decide
/-- V5.8. -/
theorem test_beq_backward_limit :
    after (launch [] [] 0x00400028 0x10008000) [] =
      some ([], 0x003E0028) := by decide
/-- V5.2. -/
theorem test_beq_not_taken :
    after (launch [(1, 1), (2, 2)] [] 0x00400028 0x10220002) [] =
      some ([], 0x0040002C) := by decide
/-- V5.11. -/
theorem test_bne_taken :
    after (launch [(1, 4)] [] 0x00400010 0x1420FFFE) [] =
      some ([], 0x00400008) := by decide
/-- V5.13. -/
theorem test_bne_not_taken :
    after (launch [(1, 4)] [] 0x00400010 0x14210005) [] =
      some ([], 0x00400014) := by decide
/-- V5.15. -/
theorem test_bgtz_unsigned :
    after (launch [(6, 0x80000000)] [] 0x00400020 0x1CC00002) [] =
      some ([], 0x00400028) := by decide
/-- V5.18. -/
theorem test_bgtz_zero_falls_through :
    after (launch [] [] 0x00400020 0x1CC00002) [] =
      some ([], 0x00400024) := by decide
/-- V6.3. -/
theorem test_j_region_of_own_pc :
    after (launch [] [] 0x0FFFFFFC 0x08000000) [] =
      some ([], 0) := by decide
/-- V6.7. -/
theorem test_jal_links_and_jumps :
    after (launch [(31, 1)] [] 0x80000010 0x0FFFFFFF) [31] =
      some ([0x80000014], 0x8FFFFFFC) := by decide
/-- V6.8. -/
theorem test_jal_link_wraps :
    after (launch [(31, 9)] [] 0xFFFFFFFC 0x0C000001) [31] =
      some ([0], 0xF0000004) := by decide
/-- V7.1: the all-zero word clears `RUN`, and the PC still advances. -/
theorem test_halt_clears_run :
    (match step (launch [(1, 0x11)] [] 0x00400014 0) with
      | .next t => some (t.run, t.cur.pc, t.x 1)
      | _ => none) = some (false, 0x00400018, 0x11) := by decide
/-- V7.3: a halted machine does nothing. -/
theorem test_halted_holds :
    step { State.reset with run := false } = .next { State.reset with run := false } := rfl
/-- V7.4: under a configuration with a `li` entry its words only advance the PC. -/
theorem test_li_advances :
    (match step { launch [(1, 0x11)] [] 0x00400000 0xFC000001 with config := withLi } with
      | .next t => some (t.run, t.cur.pc, t.x 1)
      | _ => none) = some (true, 0x00400004, 0x11) := by decide
/-- V4's refusal: `lb` at 10000001 under `MISALIGNED = refuse`. -/
theorem test_misaligned_refused :
    step { launch [(8, 0x10000001)] [] 0x00400000 0x810C0000 with config := Config.listed } =
      .refused (.misalignedAddress 0x10000001) := rfl
/-- V4: the same load under `le_bytes` gives the byte at 10000001. -/
theorem test_misaligned_le_bytes :
    after (launch [(8, 0x10000001)] [(0x10000000, 0xAABBCCEE)] 0x00400000 0x810C0000) [12] =
      some ([0xCC], 0x00400004) := by decide
/-- V4, interface traffic of vector 13, in order. -/
theorem test_bus_trace_of_sb :
    busTrace (launch [(8, 0x10000000), (10, 0xEE)] [(0x10000000, 0xAABBCCDD)] 0x00400000 0xA10A0000) =
      [.read 0x00400000, .read 0x10000000, .write 0x10000000 0xAABBCCEE] := by decide
/-- V8.5: reset reloads PC, registers and `RUN` and leaves memory alone. -/
theorem test_reset_edge :
    (match clockEdge true { launch [(1, 7)] [] 0x00400100 0x34010005 with run := false } with
      | .next t => some (t.cur.pc, t.x 1, t.run, t.wordAt 0x00400100)
      | _ => none) = some (0x00400000, 0, true, 0x34010005) := by decide

/-! ## Part 4: the hypotheses of the statements are met -/

/-- A parameter set whose memory ends one byte before the top. -/
def shortMemory : Config := { Config.chosen with memRegions := [⟨0, 0xFFFFFFFF⟩] }

theorem met_DecodeOfEncodeIsIdentity : withLi.enc = specEnc ∧ withLi.wf = true ∧
    (Instr.li 0xFC000001).wf withLi.liEntry = true ∧ (Instr.halt 0).wf withLi.liEntry = true ∧
    (Instr.jr 31 31 31 31).wf withLi.liEntry = true := by decide
theorem met_EncodeOfDecodeIsIdentity :
    Config.enc { Config.chosen with liEntry := some ⟨0x24000000, 0xFFE00000⟩ } = specEnc := rfl
theorem met_ArbiterSelectsLastMatch_no_match :
    ∀ e ∈ Config.chosen.table, e.key.hits 0x00000009 = false := by decide
/-- `addi`, which is neither the first nor the last entry. -/
theorem met_ArbiterSelectsLastMatch_match :
    Config.chosen.table = Config.chosen.table.take 7 ++ ⟨⟨0x20000000, 0xFC000000⟩, .addi⟩ ::
        Config.chosen.table.drop 8 ∧
      MaskMatch.hits ⟨0x20000000, 0xFC000000⟩ 0x2022FFFF = true ∧
      ∀ e ∈ Config.chosen.table.drop 8, e.key.hits 0x2022FFFF = false := by decide
theorem met_MatchVectorHasAtMostOneBit :
    withLi.wf = true ∧ (matchVector withLi.table 0xFC000001).count true = 1 ∧
      (matchVector withLi.table 0).count true = 0 := by decide
theorem met_DispatchIsComplete : withLi.wf = true ∧ (⟨liTop, .li⟩ : Entry) ∈ withLi.table ∧
    liTop.hits 0xFFFFFFFF = true := by decide
theorem met_LiEntryWinsOnItsWords : withLi.liEntry = some liTop ∧ liTop.hits 0xFC000000 = true ∧
    liTop.hits 0xFBFFFFFF = false := by decide
/-- Every row's own pattern is a word that `EncodedBy` speaks of. -/
theorem met_EncodedBy : ∀ e ∈ Config.chosen.table, e.key.pattern &&& e.key.mask = e.key.pattern := by decide
theorem met_GuardedRegisterAccess : (31 : RegIdx) ≠ 0 ∧ (1 : RegIdx) ≠ 31 := by decide
/-- Aligned under `refuse`; across the top of the address space under `le_bytes`. -/
theorem met_LoadsRead_StoresWrite : admits Config.listed 0xFFFFFFFC = true ∧
    admits Config.chosen 0xFFFFFFFF = true ∧ admits shortMemory 0xFFFFFFF8 = true := by decide
theorem met_DataAccessOutsideContractStops_misaligned :
    let s := { launch [(8, 3)] [] 0x00400000 0 with config := Config.listed }
    dataBase (.sb 8 9 0) = some 8 ∧ wordAligned (s.x 8) = false ∧ s.config.misaligned = .refuse := by
  decide
theorem met_DataAccessOutsideContractStops_unbacked :
    let s := { launch [(8, 0xFFFFFFFC), (9, 0xFFFFFFFD)] [] 0x00400000 0 with config := shortMemory }
    dataBase (.lw 8 9 0) = some 8 ∧ wordAligned (s.x 8) = true ∧ backsWord s.config (s.x 8) = false ∧
      wordAligned (s.x 9) = false ∧ s.config.misaligned = .leBytes ∧
      backsWord s.config (s.x 9) = false := by decide
theorem met_StepRunsDecodedInstruction : State.reset.run = true ∧
    admits State.reset.config State.reset.cur.pc = true ∧
    admits Config.listed 0x00400002 = false ∧ admits shortMemory 0xFFFFFFFC = false := by decide
theorem met_StepIsTotalInsideContract : State.reset.run = true ∧ InContract State.reset :=
  ⟨rfl, by decide, fun _ h => nomatch h⟩
theorem met_ChosenMachineNeverStops :
    State.reset.config.misaligned = Config.chosen.misaligned ∧
      State.reset.config.memRegions = Config.chosen.memRegions := ⟨rfl, rfl⟩
theorem met_StopsOnlyOutsideContract :
    step { launch [(8, 0x10000002)] [] 0x00400000 0x8D090000 with config := Config.listed } =
        .refused (.misalignedAddress 0x10000002) ∧
      step { launch [(8, 0xFFFFFFFC)] [] 0x00400000 0xAD090000 with config := shortMemory } =
        .refused (.unbackedAddress 0xFFFFFFFC) := ⟨rfl, rfl⟩

/-- A state about to run `sw $9,0($8)`, which stores over the next word. -/
def storesAhead : State := launch [(8, 0x00400004), (9, 0x34020007)] [] 0x00400000 0xAD090000

/-- It runs, its next instruction is a store, and its step answers a next state: the hypotheses of
`NextPcOfEveryInstruction`, `StepWritesOnlyItsDestination`, `OnlyStoresChangeMemory`,
`BusTraceAccountsForMemory` and `StoreIsSeenByNextFetch`. -/
theorem met_running_step : storesAhead.run = true ∧ nextInstr storesAhead = .sw 8 9 0 ∧
    storesAhead.x 8 = storesAhead.cur.pc + 4 ∧ (∃ t, step storesAhead = .next t) :=
  ⟨rfl, by decide, by decide, _, rfl⟩
theorem met_StepWritesOnlyItsDestination : destOf (.sw 8 9 0) ≠ some 9 ∧
    destOf (.jal 0) ≠ some 30 := by decide
theorem met_OnlyStoresChangeMemory : isStore (.lw 8 9 0) = false ∧ dataBase (.sw 8 9 0) = some 8 ∧
    ∀ k < 4, (0x00400003 : Word) ≠ storesAhead.x 8 + BitVec.ofNat 32 k := by decide
theorem met_OnlyHaltClearsRunAndNothingSetsIt : (∃ t, step State.reset = .next t) ∧
    (nextInstr State.reset).handler = .halt ∧ (nextInstr storesAhead).handler ≠ .halt :=
  ⟨⟨_, rfl⟩, by decide, by decide⟩
theorem met_HaltedStateIsFinal : State.run { State.reset with run := false } = false := rfl
theorem met_HaltEventIsPrecise : State.reset.run = true ∧
    admits State.reset.config State.reset.cur.pc = true ∧
    ∀ e ∈ State.reset.config.table, e.key.hits (fetchedWord State.reset) = false := by decide
theorem met_HiddenStateIsNeverRead : storesAhead.run = true := rfl
/-- A state with memory listed, about to run `jal`. -/
theorem met_StepKeepsInvariant : (State.reset.withFetchWord 32 0x0C100004).Inv ∧
    ∃ t, step (State.reset.withFetchWord 32 0x0C100004) = .next t :=
  ⟨⟨by decide, by decide, rfl⟩, _, rfl⟩
/-- A `jr` to an aligned target, and an instruction that is no `jr`. -/
theorem met_PcStaysAligned :
    let s := launch [(31, 0xFFFFFFFC)] [] 0x00400000 0x03E00008
    (wordAligned s.cur.pc = true ∧ nextInstr s = .jr 31 0 0 0 ∧ wordAligned (s.x 31) = true) ∧
      wordAligned storesAhead.cur.pc = true := by decide
theorem met_ReadReturnsMostRecentWrite : wordAligned 0xFFFFFFFC = true ∧
    ([(0xFFFFFFFC, 1), (0, 2), (0xFFFFFFFC, 3)] : List (Word × Word)).all
      (fun p => wordAligned p.1) = true := ⟨rfl, rfl⟩
theorem met_WrittenWordReadsBack : ∃ t, State.reset.memWrite 0xFFFFFFFE 0x12345678 = .next t := ⟨_, rfl⟩
theorem met_WrittenWordReadsBack_outside :
    ∀ k < 4, (2 : Word) ≠ 0xFFFFFFFE + BitVec.ofNat 32 k := by decide
theorem met_ByteOrderOfAWord : Config.chosen.endian = .little ∧
    Config.endian { Config.chosen with endian := .big } = .big := ⟨rfl, rfl⟩

/-- The machine with the other byte order and the same word at the PC, `lw $9,0($8)`. -/
def loadsUnder (e : Endian) : State :=
  State.placeWord { State.reset with config := { Config.chosen with endian := e } } 0x00400000 0x8D090000

theorem loadsUnder_wordAt (e : Endian) (a : Word) (ha : wordAligned a = true) :
    (loadsUnder e).wordAt a = if a = 0x00400000 then 0x8D090000 else 0 := by
  unfold loadsUnder
  split
  · rename_i h; subst h; rw [State.wordAt_placeWord_same]
  · rename_i h
    rw [State.wordAt_placeWord_of_ne _ _ (aligned_words_disjoint (by decide) ha h)]
    show Endian.join e Memory.unlisted Memory.unlisted Memory.unlisted Memory.unlisted = 0
    cases e <;> decide

theorem met_AlignedCyclesCannotSeeByteOrder : SameWords (loadsUnder .little) (loadsUnder .big) ∧
    AlignedCycle (loadsUnder .little) ∧ ∃ t, step (loadsUnder .little) = .next t := by
  refine ⟨⟨rfl, rfl, rfl, rfl, rfl, rfl, fun a ha => ?_⟩, ⟨by decide, ?_⟩, _, rfl⟩
  · rw [loadsUnder_wordAt _ a ha, loadsUnder_wordAt _ a ha]
  · have h : nextInstr (loadsUnder .little) = .lw 8 9 0 := by decide
    rw [h]
    rintro _ ⟨⟩
    decide
theorem met_LoadedProgramIsFetched : ([0x34010005, 0] : List Word).length ≤ 2 ^ 30 ∧
    admits State.reset.config State.reset.config.resetPc = true := by decide
theorem met_LiExpansionLoadsValue : (31 : RegIdx) ≠ 0 := by decide

end Sys2Proof.Tests
end

section
/-! Proofs of the statements about the state (spec/10_state.md): the registers, the PC, the hidden state and
the values at reset. -/

namespace Sys2Proof.Machine

/-! ## Address arithmetic -/

/-- A taken branch: the offset added to the staged `pc + 4` gives `pc + 4 * sext(imm)` (R123). -/
theorem add_four_add_branchOffset (pc : Word) (imm : Imm) :
    pc + 4#32 + branchOffset imm = pc + 4#32 * imm.signExtend 32 := by
  have offset : branchOffset imm = 4#32 * imm.signExtend 32 - 4#32 := by
    calc branchOffset imm = (imm.signExtend 32 - 1#32) * 4#32 := BitVec.shiftLeft_eq_mul_twoPow _ 2
      _ = 4#32 * imm.signExtend 32 - 4#32 := by rw [sub_mul, BitVec.one_mul, mul_comm]
  rw [offset, add_add_sub_cancel]

/-- The region of a jump: bits 31:28 of its address, with zeros below (R130). -/
theorem and_region_eq_append (pc : Word) :
    pc &&& 0xF0000000#32 = pc.extractLsb' 28 4 ++ 0#26 ++ 0#2 := by
  have h1 : pc.extractLsb' 28 4 ++ pc.extractLsb' 2 26 = pc.extractLsb' 2 30 :=
    BitVec.extractLsb'_append_extractLsb'_eq_extractLsb' rfl
  have h2 : pc.extractLsb' 2 30 ++ pc.extractLsb' 0 2 = pc :=
    (BitVec.extractLsb'_append_extractLsb'_eq_extractLsb' rfl).trans BitVec.extractLsb'_eq_self
  conv_lhs => rw [← h2, ← h1]
  show (pc.extractLsb' 28 4 ++ pc.extractLsb' 2 26 ++ pc.extractLsb' 0 2) &&&
    (BitVec.allOnes 4 ++ 0#26 ++ 0#2) = _
  rw [BitVec.and_append, BitVec.and_append, BitVec.and_allOnes, BitVec.and_zero, BitVec.and_zero]

/-- The jump field in words: shifted left by two inside a word (R130). -/
theorem zext32J_shiftLeft_eq_append (address : JumpAddr) :
    zext32J address <<< 2 = 0#4 ++ address ++ 0#2 := by
  rw [BitVec.shiftLeft_eq_concat_of_lt (by decide), ← BitVec.setWidth_eq_extractLsb' (by decide), zext32J,
    BitVec.setWidth_setWidth_of_le _ (by decide), BitVec.setWidth_eq_append (by decide)]
  rfl

/-- The jump target by bit fields: bits 31:28 of the jump's address, the field, two zeros (R130). -/
theorem jumpTarget_eq_append (pc : Word) (address : JumpAddr) :
    jumpTarget pc address = pc.extractLsb' 28 4 ++ address ++ 0#2 := by
  rw [jumpTarget, and_region_eq_append, zext32J_shiftLeft_eq_append, BitVec.or_append, BitVec.or_append,
    BitVec.or_zero, BitVec.zero_or, BitVec.or_zero]

/-- Adding a multiple of 4 keeps an address aligned, across the top of the address space too. -/
theorem wordAligned_add_four_mul {pc : Word} (h : wordAligned pc = true) (k : Word) :
    wordAligned (pc + 4#32 * k) = true := by
  rw [wordAligned_iff] at h ⊢
  simp only [BitVec.toNat_add, BitVec.toNat_mul, BitVec.toNat_ofNat]
  omega

/-- The address after an aligned one is aligned (R19). -/
theorem wordAligned_add_four {pc : Word} (h : wordAligned pc = true) : wordAligned (pc + 4#32) = true :=
  wordAligned_add_four_mul h 1#32

/-- A jump target ends in two zeros (R130). -/
theorem wordAligned_append_zeros (v : BitVec 30) : wordAligned (v ++ 0#2) = true := by
  simp only [wordAligned, beq_iff_eq]
  exact BitVec.extractLsb'_append_eq_right

/-! ## The PC -/

/-- The next PC of a branch, taken or not, where the staged one is `pc + 4` (R123). -/
theorem branchIf_nxt_pc {s : State} (hpc : s.nxt.pc = s.cur.pc + 4#32) (taken : Bool) (imm : Imm) :
    (branchIf taken imm s).nxt.pc =
      if taken then s.cur.pc + 4#32 * imm.signExtend 32 else s.cur.pc + 4#32 := by
  cases taken
  · exact hpc
  · simp [branchIf, hpc, add_four_add_branchOffset]

/-- From a state whose staged PC is `pc + 4`, a completed execute leaves the next PC of its instruction. -/
theorem exec_next_pc {i : Instr} {s t : State} (hpc : s.nxt.pc = s.cur.pc + 4#32) (h : exec i s = .next t) :
    t.nxt.pc = nextPcOf s i := by
  cases i with
  | add | addu | sub | subu | lui | ori | addi | addiu | slti =>
    obtain rfl := Host.Outcome.next.inj h
    simpa [nextPcOf] using hpc
  | lw | lb =>
    obtain ⟨w, -, hw⟩ := andThen_eq_next.1 h
    obtain rfl := Host.Outcome.next.inj hw
    simpa [nextPcOf] using hpc
  | sw =>
    obtain ⟨-, rfl⟩ := State.memWrite_eq_next.1 h
    exact hpc
  | sb =>
    obtain ⟨w, -, hw⟩ := andThen_eq_next.1 h
    obtain ⟨-, rfl⟩ := State.memWrite_eq_next.1 hw
    exact hpc
  | jr =>
    obtain rfl := Host.Outcome.next.inj h
    rfl
  | beq | bne | bgtz =>
    obtain rfl := Host.Outcome.next.inj h
    simp [branchIf_nxt_pc hpc, nextPcOf]
  | j | jal =>
    obtain rfl := Host.Outcome.next.inj h
    exact jumpTarget_eq_append _ _
  | li | halt =>
    obtain rfl := Host.Outcome.next.inj h
    exact hpc

/-- A completed step of a running state is a completed execute of the next instruction, committed. -/
theorem step_next_of_running {s t : State} (hrun : s.run = true) (h : step s = .next t) :
    ∃ u, exec (nextInstr s) (s.staged (fetchedWord s)).select = .next u ∧ t = u.commit := by
  rcases step_next_cases h with ⟨hhalted, -⟩ | ⟨-, -, hexec⟩
  · simp [hrun] at hhalted
  · exact hexec

/-- Settles O33: the staged PC is `pc + 4`, and execute makes the instruction's next PC of it. -/
theorem nextPcOfEveryInstruction : Obligations.NextPcOfEveryInstruction := by
  intro s t hrun hstep
  obtain ⟨u, hu, rfl⟩ := step_next_of_running hrun hstep
  exact exec_next_pc (s := (s.staged (fetchedWord s)).select) rfl hu

/-- The next PC of an aligned PC is aligned, if a `jr` has an aligned target. -/
theorem wordAligned_nextPcOf {s : State} {i : Instr} (hpc : wordAligned s.cur.pc = true)
    (hjr : ∀ rs rt rd shamt, i = .jr rs rt rd shamt → wordAligned (s.x rs) = true) :
    wordAligned (nextPcOf s i) = true := by
  cases i with
  | jr rs rt rd shamt => exact hjr rs rt rd shamt rfl
  | j | jal => exact wordAligned_append_zeros _
  | beq | bne | bgtz =>
    simp only [nextPcOf]
    split <;> simp only [wordAligned_add_four_mul hpc, wordAligned_add_four hpc]
  | _ => exact wordAligned_add_four hpc

/-- Settles O42: a halted state keeps its PC, and a running one gets its instruction's next PC. -/
theorem pcStaysAligned : Obligations.PcStaysAligned := by
  intro s t hpc hstep hjr
  cases hrun : s.run
  · obtain rfl : s = t := Host.Outcome.next.inj ((step_of_halted hrun).symm.trans hstep)
    exact hpc
  · rw [nextPcOfEveryInstruction s t hrun hstep]
    exact wordAligned_nextPcOf hpc hjr

/-- The frame of `pc <- p`, which serves `advance_pc` too (R17, R18). -/
theorem setsPc_setPc (s : State) (p : Word) : SetsPc s (s.setPc p) p :=
  ⟨rfl, fun _ => rfl, rfl, fun _ => rfl, rfl, rfl, rfl, rfl⟩

/-- Settles O10: `advance_pc(d)` is `pc <- t` with `t` the staged PC plus `d`. -/
theorem nextPcOperations : Obligations.NextPcOperations := fun s t d =>
  ⟨setsPc_setPc s t, setsPc_setPc s (s.nxt.pc + d)⟩

/-! ## Registers -/

/-- A write to register 0 changes nothing (R14). -/
@[simp] theorem State.setX_zero (s : State) (v : Word) : s.setX 0#5 v = s := by
  simp [State.setX]

/-- A register after the commit of a write (R14, R81). -/
theorem State.setX_commit_x (s : State) (i q : RegIdx) (v : Word) :
    (s.setX i v).commit.x q = if q = i ∧ i ≠ 0#5 then v else s.commit.x q :=
  Snapshot.read_write s.nxt i q v

/-- Settles O9: reads see `CUR`, writes go to `NXT`, and both are guarded against register 0. -/
theorem guardedRegisterAccess : Obligations.GuardedRegisterAccess := by
  intro s i v
  refine ⟨s.cur.read_zero, s.setX_zero v, fun q => s.setX_x i v q, fun hi => ?_, fun q hq => ?_⟩
  · rw [State.setX_commit_x, if_pos ⟨rfl, hi⟩]
  · rw [State.setX_commit_x, if_neg fun h => hq h.1]

/-- Execute changes no staged register but its instruction's destination (R15). -/
theorem exec_read_of_ne_dest {i : Instr} {s t : State} {q : RegIdx} (h : exec i s = .next t)
    (hq : destOf i ≠ some q) : t.nxt.read q = s.nxt.read q := by
  rcases exec_next_cases h with ⟨rd, v, hd, -, rfl⟩ | ⟨p, -, -, -, rfl⟩ | ⟨p, hd, -, rfl⟩ |
    ⟨rs, v, -, -, -, rfl⟩ | ⟨-, rfl⟩
  case inl =>
    have hne : q ≠ rd := fun e => hq (e ▸ hd)
    simp [Snapshot.read_write, hne]
  case inr.inr.inl =>
    have hne : q ≠ 31#5 := fun e => hq (e ▸ hd)
    simp [Snapshot.read_write, hne]
  all_goals rfl

/-- Settles O34: `NXT` starts as `CUR`, and execute writes only the destination in it. -/
theorem stepWritesOnlyItsDestination : Obligations.StepWritesOnlyItsDestination := by
  intro s t hrun hstep
  refine ⟨t.cur.read_zero, fun q hq => ?_⟩
  obtain ⟨u, hu, rfl⟩ := step_next_of_running hrun hstep
  exact exec_read_of_ne_dest hu hq

/-! ## The hidden state -/

/-- Settles O39: fetch and decode overwrite `IW`, `SEL` and `NXT` before execute reads them. -/
theorem hiddenStateIsNeverRead : Obligations.HiddenStateIsNeverRead := by
  intro s w h n hrun
  cases ha : admits s.config s.cur.pc
  · rw [step_of_not_admits hrun ha]
    exact step_of_not_admits hrun ha
  · rw [step_of_admits hrun ha]
    exact step_of_admits hrun ha

/-! ## Reset -/

/-- Every register of the chosen reset state is 0 (decision D11). -/
theorem State.reset_x (r : RegIdx) : State.reset.x r = 0#32 := by
  simp only [State.x, Snapshot.read]
  split
  · rfl
  · exact Vector.getElem_replicate _

/-- Settles O51: the values are those of `Config.chosen`, and a reset edge loads them again. -/
theorem resetStateValues : Obligations.ResetStateValues :=
  ⟨rfl, State.reset_x, rfl, fun _ => rfl, rfl⟩

end Sys2Proof.Machine
end

section
/-! Proofs of the statements about memory (spec/20_memory.md): words made of bytes, the two primitives, what a
step does to memory and where it stops, the accesses of a cycle, and the two byte orders. -/

namespace Sys2Proof.Machine

/-! ## The byte order of a word -/

/-- Appended bit vectors as a number. -/
theorem toNat_append_eq_add {n m : Nat} (x : BitVec n) (y : BitVec m) :
    (x ++ y).toNat = 2 ^ m * x.toNat + y.toNat := by
  rw [BitVec.toNat_append, ← Nat.shiftLeft_add_eq_or_of_lt y.isLt, Nat.shiftLeft_eq, Nat.mul_comm]

/-- Settles O45: each append moves the higher part up by the bits of one byte. -/
theorem byteOrderOfAWord : Obligations.ByteOrderOfAWord := by
  intro s a
  constructor <;> intro horder
  all_goals
    simp only [State.wordAt, horder, Endian.join, toNat_append_eq_add]
    omega

/-! ## Read after write -/

/-- An aligned word after a placed aligned word: the value placed, if that was the address (R32). -/
theorem State.wordAt_placeWord_of_aligned (s : State) {a b : Word} (v : Word)
    (ha : wordAligned a = true) (hb : wordAligned b = true) :
    (s.placeWord a v).wordAt b = if a = b then v else s.wordAt b := by
  split
  · rename_i hab
    subst hab
    exact s.wordAt_placeWord_same a v
  · rename_i hab
    exact s.wordAt_placeWord_of_ne v (aligned_words_disjoint ha hb (Ne.symm hab))

/-- Settles O43, by induction on the writes from the last one back. -/
theorem readReturnsMostRecentWrite : Obligations.ReadReturnsMostRecentWrite := by
  intro s writes a ha hwrites
  induction writes using List.reverseRecOn with
  | nil => rfl
  | append_singleton earlier p ih =>
    have hp : wordAligned p.1 = true := hwrites p (by simp)
    have ih := ih fun q hq => hwrites q (by simp [hq])
    rw [List.foldl_append, List.foldl_cons, List.foldl_nil, State.wordAt_placeWord_of_aligned _ _ hp ha, ih,
      List.reverse_append, List.reverse_singleton, List.singleton_append, List.find?_cons]
    by_cases hpa : p.1 = a
    · rw [if_pos hpa, beq_iff_eq.2 hpa]; rfl
    · rw [if_neg hpa, beq_eq_false_iff_ne.2 hpa]

/-- Settles O44: a completed write is a placed word, read back at an address that stays admitted. -/
theorem writtenWordReadsBack : Obligations.WrittenWordReadsBack := by
  intro s t a v hwrite
  obtain ⟨hadmits, rfl⟩ := State.memWrite_eq_next.1 hwrite
  exact ⟨State.memRead_eq_next.2 ⟨hadmits, (s.wordAt_placeWord_same a v).symm⟩,
    fun b hb => s.byteAt_placeWord_of_ne v hb⟩

/-! ## What a step does to memory -/

/-- Only a store changes memory, by one word at its data address. -/
theorem exec_mem_cases {i : Instr} {s t : State} (h : exec i s = .next t) :
    t.mem = s.mem ∨
      ∃ rs v, dataBase i = some rs ∧ isStore i = true ∧ t.mem = (s.placeWord (s.x rs) v).mem := by
  rcases exec_next_cases h with ⟨rd, v, -, -, rfl⟩ | ⟨p, -, -, -, rfl⟩ | ⟨p, -, -, rfl⟩ |
    ⟨rs, v, -, hbase, hstore, rfl⟩ | ⟨-, rfl⟩
  case inr.inr.inr.inl => exact .inr ⟨rs, v, hbase, hstore, rfl⟩
  all_goals exact .inl rfl

/-- An instruction that is no store leaves memory alone. -/
theorem exec_mem_of_not_store {i : Instr} {s t : State} (h : exec i s = .next t)
    (hi : isStore i = false) : t.mem = s.mem := by
  rcases exec_mem_cases h with hmem | ⟨_, _, -, hstore, -⟩
  · exact hmem
  · simp [hi] at hstore

/-- The memory a completed cycle leaves: fetch, decode and commit leave it alone. -/
theorem step_mem_cases {s t : State} (hrun : s.run = true) (h : step s = .next t) :
    t.mem = s.mem ∨
      ∃ rs v, dataBase (nextInstr s) = some rs ∧ isStore (nextInstr s) = true ∧
        t.mem = (s.placeWord (s.x rs) v).mem := by
  obtain ⟨u, hu, rfl⟩ := step_next_of_running hrun h
  exact (exec_mem_cases hu :)

/-- States with one memory have the same bytes. -/
theorem State.byteAt_congr {s t : State} (h : t.mem = s.mem) (b : Word) : t.byteAt b = s.byteAt b :=
  congrArg (Memory.read · b.toNat) h

/-- Settles O35: a cycle leaves memory as it was, or with one word placed at the store's data address. -/
theorem onlyStoresChangeMemory : Obligations.OnlyStoresChangeMemory := by
  intro s t hrun hstep b
  rcases step_mem_cases hrun hstep with hmem | ⟨rs, v, hbase, hstore, hmem⟩
  · exact ⟨fun _ => State.byteAt_congr hmem b, fun _ _ _ => State.byteAt_congr hmem b⟩
  · refine ⟨fun hi => by simp [hi] at hstore, fun rs' hbase' hb => ?_⟩
    obtain rfl : rs' = rs := Option.some.inj (hbase'.symm.trans hbase)
    exact (State.byteAt_congr hmem b).trans (s.byteAt_placeWord_of_ne v hb)

/-- Settles O46: the cycle ends with the word placed, and the next fetch reads memory as it is then. -/
theorem storeIsSeenByNextFetch : Obligations.StoreIsSeenByNextFetch := by
  intro s t rs rt imm hrun hi hstep
  have hpc : t.cur.pc = s.cur.pc + 4#32 := by
    rw [nextPcOfEveryInstruction s t hrun hstep, hi]; rfl
  obtain ⟨u, hu, rfl⟩ := step_next_of_running hrun hstep
  rw [hi] at hu
  obtain ⟨hadmits, hplaced⟩ := State.memWrite_eq_next.1 hu
  have hword : u.commit.wordAt (s.x rs) = s.x rt := by
    rw [hplaced]
    exact State.wordAt_placeWord_same (s.staged (fetchedWord s)).select (s.x rs) (s.x rt)
  refine ⟨hword, hpc, fun hnext => ?_⟩
  have hadmits' : admits u.commit.config (s.x rs) = true := by
    rw [hplaced]
    exact hadmits
  rw [← hnext] at hpc
  rw [← hpc] at hadmits'
  rw [State.fetch_of_admits hadmits', hpc, hword]

/-! ## Where a step stops -/

/-- A non-aligned address under `MISALIGNED = refuse` is refused by that name (R36). -/
theorem stop_of_misaligned {α : Type} {c : Config} {a : Word} (ha : wordAligned a = false)
    (hm : c.misaligned = .refuse) : admits c a = false ∧
      (stopAt c a : Host.Outcome α Fault Refusal) = .refused (.misalignedAddress a) := by
  simp [admits, stopAt, ha, hm]

/-- An address that alignment does not rule out is refused where a byte is not backed (R39). -/
theorem stop_of_unbacked {α : Type} {c : Config} {a : Word}
    (ha : wordAligned a = true ∨ c.misaligned = .leBytes) (hb : backsWord c a = false) :
    admits c a = false ∧
      (stopAt c a : Host.Outcome α Fault Refusal) = .refused (.unbackedAddress a) := by
  rcases ha with ha | ha <;> simp [admits, stopAt, ha, hb]

/-- Settles O21: the data access is outside the contract, and execute stops with its refusal. -/
theorem dataAccessOutsideContractStops : Obligations.DataAccessOutsideContractStops := by
  intro i rs s hbase
  constructor
  · intro ha hm
    obtain ⟨hadmits, hstop⟩ := stop_of_misaligned ha hm
    rw [exec_of_not_admits hbase hadmits, hstop]
  · intro ha hb
    obtain ⟨hadmits, hstop⟩ := stop_of_unbacked ha hb
    rw [exec_of_not_admits hbase hadmits, hstop]

/-- Execute completes where its data address, if it has one, is inside the contract. -/
theorem exec_of_admits {i : Instr} {s : State}
    (h : ∀ rs, dataBase i = some rs → admits s.config (s.x rs) = true) : ∃ t, exec i s = .next t := by
  cases i with
  | lw rs | lb rs => exact ⟨_, andThen_eq_next.2 ⟨_, State.memRead_of_admits (h rs rfl), rfl⟩⟩
  | sw rs => exact ⟨_, State.memWrite_of_admits _ (h rs rfl)⟩
  | sb rs =>
    exact ⟨_, andThen_eq_next.2
      ⟨_, State.memRead_of_admits (h rs rfl), State.memWrite_of_admits _ (h rs rfl)⟩⟩
  | _ => exact ⟨_, rfl⟩

/-- Execute completes, or stops at a data address outside the contract. -/
theorem exec_completes_or_stops (i : Instr) (s : State) :
    (∃ t, exec i s = .next t) ∨
      ∃ a, admits s.config a = false ∧ exec i s = stopAt s.config a := by
  by_cases h : ∀ rs, dataBase i = some rs → admits s.config (s.x rs) = true
  · exact .inl (exec_of_admits h)
  · simp only [not_forall, Bool.not_eq_true] at h
    obtain ⟨rs, hbase, hadmits⟩ := h
    exact .inr ⟨_, hadmits, exec_of_not_admits hbase hadmits⟩

/-- A step completes, or stops at an address outside the contract. -/
theorem step_completes_or_stops (s : State) :
    (∃ t, step s = .next t) ∨ ∃ a, admits s.config a = false ∧ step s = stopAt s.config a := by
  cases hrun : s.run
  · exact .inl ⟨s, step_of_halted hrun⟩
  cases hpc : admits s.config s.cur.pc
  · exact .inr ⟨_, hpc, step_of_not_admits hrun hpc⟩
  rw [step_of_admits hrun hpc]
  rcases exec_completes_or_stops (nextInstr s) (s.staged (fetchedWord s)).select with ⟨u, hu⟩ | ⟨a, ha, hstop⟩
  · exact .inl ⟨u.commit, by rw [hu, andThen_next]⟩
  · exact .inr ⟨a, ha, by rw [hstop, andThen_stopAt]; rfl⟩

/-- Settles O32: a step that does not complete stops at an address, by one of the two refusals. -/
theorem stopsOnlyOutsideContract : Obligations.StopsOnlyOutsideContract := by
  intro s
  rcases step_completes_or_stops s with ⟨t, ht⟩ | ⟨a, ha, hstop⟩
  · rw [ht]
    exact ⟨nofun, nofun⟩
  · rw [hstop]
    refine ⟨fun r hr => ?_, fun f hf => by cases f⟩
    rcases stopAt_cases (α := State) ha with ⟨hname, halign, hm⟩ | ⟨hname, hback⟩
    · exact .inl ⟨a, Host.Outcome.refused.inj (hr.symm.trans hname), halign, hm⟩
    · exact .inr ⟨a, Host.Outcome.refused.inj (hr.symm.trans hname), hback⟩

/-! ## The accesses of a cycle -/

/-- The handler the next cycle selects (R76). -/
def nextSel (s : State) : Handler := arbiter s.config.table (fetchedWord s)

/-- The value on the data address port in the next cycle (R84). -/
def dataAddress (s : State) : Word := s.x (rsOf (fetchedWord s))

/-- The data reads of the next cycle: one, where the control row reads (R79). -/
def dataReads (s : State) : List BusAccess :=
  if (controlRow (nextSel s)).memRead then [.read (dataAddress s)] else []

/-- The data writes of the next cycle: one, of the value on the write port, where the control row stores (R79). -/
def dataWrites (s : State) : List BusAccess :=
  match (controlRow (nextSel s)).memWrite with
  | none => []
  | some m =>
    [.write (dataAddress s) (storeValue m (s.wordAt (dataAddress s)) (s.staged (fetchedWord s)))]

/-- The accesses of a running cycle in order (R37). -/
theorem busTrace_of_running {s : State} (hrun : s.run = true) :
    busTrace s = .read s.cur.pc :: (dataReads s ++ dataWrites s) := by
  simp only [busTrace, ports, hrun, if_true, Bool.true_and, dataReads, dataWrites, dataAddress, nextSel,
    fetchedWord]
  cases (controlRow (arbiter s.config.table (s.wordAt s.cur.pc))).memWrite <;> rfl

theorem dataReads_cases (s : State) : dataReads s = [] ∨ ∃ a, dataReads s = [.read a] := by
  unfold dataReads
  split
  · exact .inr ⟨_, rfl⟩
  · exact .inl rfl

theorem dataWrites_cases (s : State) : dataWrites s = [] ∨ ∃ a v, dataWrites s = [.write a v] := by
  unfold dataWrites
  split
  · exact .inl rfl
  · exact .inr ⟨_, _, rfl⟩

/-- Execute of the next instruction leaves the memory that the cycle's data writes make. -/
theorem exec_mem_eq_dataWrites {s u : State}
    (hexec : exec (nextInstr s) (s.staged (fetchedWord s)).select = .next u) :
    u.mem = (dataWrites s).foldl (applyAccess s.config.endian) s.mem := by
  have hview : nextInstr s = (nextSel s).view (fetchedWord s) := rfl
  rw [hview] at hexec
  unfold dataWrites
  generalize nextSel s = h at hexec ⊢
  cases h with
  | sw =>
    obtain ⟨-, rfl⟩ := State.memWrite_eq_next.1 hexec
    rfl
  | sb =>
    obtain ⟨w, hread, hwrite⟩ := andThen_eq_next.1 hexec
    obtain ⟨-, rfl⟩ := State.memRead_eq_next.1 hread
    obtain ⟨-, rfl⟩ := State.memWrite_eq_next.1 hwrite
    rfl
  | _ => exact (exec_mem_of_not_store hexec rfl :)

/-- Settles O49: reads leave memory alone, and the data writes are what execute does to it. -/
theorem busTraceAccountsForMemory : Obligations.BusTraceAccountsForMemory := by
  intro s t hrun hstep
  obtain ⟨u, hu, rfl⟩ := step_next_of_running hrun hstep
  rw [busTrace_of_running hrun]
  constructor
  · refine ⟨dataReads s, dataWrites s, rfl, ?_⟩
    rcases dataReads_cases s with hr | ⟨a, hr⟩ <;> rcases dataWrites_cases s with hw | ⟨b, v, hw⟩ <;>
      simp [hr, hw, BusAccess.isWrite]
  · have hmem := exec_mem_eq_dataWrites hu
    rcases dataReads_cases s with hr | ⟨a, hr⟩ <;> rw [hr] <;> exact hmem

/-! ## The reset state -/

/-- Settles O41: the memory lists nothing, and the chosen parameters pass their check. -/
theorem resetMeetsInvariant : Obligations.ResetMeetsInvariant := ⟨rfl, by decide, rfl⟩

/-! ## Two byte orders -/

namespace SameWords

variable {s t : State}

/-- Whatever does not read the byte order is the same of the parameters of both states. -/
theorem config_congr {α : Type} (h : SameWords s t) (f : Config → α)
    (hf : ∀ c e, f { c with endian := e } = f c) : f t.config = f s.config :=
  (hf t.config s.config.endian).symm.trans (congrArg f h.config)

theorem x (h : SameWords s t) (r : RegIdx) : t.x r = s.x r := congrArg (Snapshot.read · r) h.cur

theorem pc (h : SameWords s t) : t.pc = s.pc := congrArg Snapshot.pc h.cur

theorem setX (h : SameWords s t) (r : RegIdx) (v : Word) : SameWords (s.setX r v) (t.setX r v) :=
  ⟨h.cur, congrArg (Snapshot.write · r v) h.nxt, h.run, h.iw, h.sel, h.config, h.words⟩

theorem setPc (h : SameWords s t) (p : Word) : SameWords (s.setPc p) (t.setPc p) :=
  ⟨h.cur, by simp [h.nxt], h.run, h.iw, h.sel, h.config, h.words⟩

theorem clearRun (h : SameWords s t) : SameWords s.clearRun t.clearRun :=
  ⟨h.cur, h.nxt, rfl, h.iw, h.sel, h.config, h.words⟩

theorem commit (h : SameWords s t) : SameWords s.commit t.commit :=
  ⟨h.nxt, h.nxt, h.run, h.iw, h.sel, h.config, h.words⟩

theorem staged (h : SameWords s t) (w : Word) : SameWords (s.staged w) (t.staged w) :=
  ⟨h.cur, by simp [h.cur], h.run, rfl, h.sel, h.config, h.words⟩

theorem select (h : SameWords s t) : SameWords s.select t.select :=
  ⟨h.cur, h.nxt, h.run, h.iw, by
    rw [State.select_sel, State.select_sel, h.iw, h.config_congr Config.table fun _ _ => rfl],
    h.config, h.words⟩

/-- A word placed at an aligned address is the same word under both byte orders. -/
theorem placeWord (h : SameWords s t) {a : Word} (ha : wordAligned a = true) (v : Word) :
    SameWords (s.placeWord a v) (t.placeWord a v) :=
  ⟨h.cur, h.nxt, h.run, h.iw, h.sel, h.config, fun b hb => by
    rw [State.wordAt_placeWord_of_aligned _ _ ha hb, State.wordAt_placeWord_of_aligned _ _ ha hb,
      h.words b hb]⟩

theorem branchIf (h : SameWords s t) (taken : Bool) (imm : Imm) :
    SameWords (branchIf taken imm s) (branchIf taken imm t) := by
  cases taken
  · exact h
  · show SameWords (s.setPc (s.nxt.pc + branchOffset imm)) (t.setPc (t.nxt.pc + branchOffset imm))
    rw [h.nxt]
    exact h.setPc _

theorem admits (h : SameWords s t) (a : Word) : admits t.config a = admits s.config a :=
  h.config_congr (Machine.admits · a) fun _ _ => rfl

/-- A completed read of an aligned word completes with the same word. -/
theorem memRead (h : SameWords s t) {a w : Word} (ha : wordAligned a = true)
    (hr : s.memRead a = .next w) : t.memRead a = .next w := by
  rw [State.memRead_eq_next] at hr ⊢
  rwa [h.admits, h.words a ha]

/-- A completed write of an aligned word completes in states alike. -/
theorem memWrite (h : SameWords s t) {a v : Word} {s' : State} (ha : wordAligned a = true)
    (hw : s.memWrite a v = .next s') : ∃ t', t.memWrite a v = .next t' ∧ SameWords s' t' := by
  obtain ⟨hadmits, rfl⟩ := State.memWrite_eq_next.1 hw
  exact ⟨_, State.memWrite_of_admits v (h.admits a ▸ hadmits), h.placeWord ha v⟩

/-- The word fetched from an aligned PC is the same. -/
theorem fetchedWord (h : SameWords s t) (hpc : wordAligned s.cur.pc = true) :
    fetchedWord t = fetchedWord s := by
  rw [Machine.fetchedWord, Machine.fetchedWord, h.cur, h.words _ hpc]

theorem nextInstr (h : SameWords s t) (hpc : wordAligned s.cur.pc = true) :
    nextInstr t = nextInstr s := by
  rw [Machine.nextInstr, Machine.nextInstr, h.fetchedWord hpc]
  exact h.config_congr (decodeWith · _) fun _ _ => rfl

/-- Execute with an aligned data address, if it has one, completes in states alike. -/
theorem exec (h : SameWords s t) {i : Instr} {s' : State}
    (ha : ∀ rs, dataBase i = some rs → wordAligned (s.x rs) = true) (hs : exec i s = .next s') :
    ∃ t', exec i t = .next t' ∧ SameWords s' t' := by
  cases i with
  | add | addu | sub | subu | lui | ori | addi | addiu | slti =>
    obtain rfl := Host.Outcome.next.inj hs
    exact ⟨_, rfl, by simpa only [h.x] using h.setX _ _⟩
  | jr rs =>
    obtain rfl := Host.Outcome.next.inj hs
    exact ⟨_, rfl, by simpa only [h.x] using h.setPc (s.x rs)⟩
  | beq | bne | bgtz =>
    obtain rfl := Host.Outcome.next.inj hs
    exact ⟨_, rfl, by simpa only [h.x] using h.branchIf _ _⟩
  | j =>
    obtain rfl := Host.Outcome.next.inj hs
    exact ⟨_, rfl, by simpa only [h.pc] using h.setPc _⟩
  | jal =>
    obtain rfl := Host.Outcome.next.inj hs
    exact ⟨_, rfl, by simpa only [h.pc] using (h.setX _ _).setPc _⟩
  | lw rs | lb rs =>
    obtain ⟨w, hr, hw⟩ := andThen_eq_next.1 hs
    obtain rfl := Host.Outcome.next.inj hw
    exact ⟨_, andThen_eq_next.2 ⟨w, h.x rs ▸ h.memRead (ha rs rfl) hr, rfl⟩, h.setX _ _⟩
  | sw rs rt =>
    obtain ⟨t', hw, hst⟩ := h.memWrite (ha rs rfl) hs
    rw [← h.x rs, ← h.x rt] at hw
    exact ⟨t', hw, hst⟩
  | sb rs rt =>
    obtain ⟨w, hr, hw⟩ := andThen_eq_next.1 hs
    obtain ⟨t', hw', hst⟩ := h.memWrite (ha rs rfl) hw
    rw [← h.x rs, ← h.x rt] at hw'
    exact ⟨t', andThen_eq_next.2 ⟨w, h.x rs ▸ h.memRead (ha rs rfl) hr, hw'⟩, hst⟩
  | li =>
    obtain rfl := Host.Outcome.next.inj hs
    exact ⟨_, rfl, h⟩
  | halt =>
    obtain rfl := Host.Outcome.next.inj hs
    exact ⟨_, rfl, h.clearRun⟩

end SameWords

/-- Settles O47: every word the cycle reads or writes is aligned, so fetch, decode, execute and commit keep the
two states alike. -/
theorem alignedCyclesCannotSeeByteOrder : Obligations.AlignedCyclesCannotSeeByteOrder := by
  intro s t s' h ⟨hpc, hdata⟩ hstep
  rcases step_next_cases hstep with ⟨hrun, rfl⟩ | ⟨hrun, hadmits, u, hu, rfl⟩
  · exact ⟨t, step_of_halted (h.run.trans hrun), h⟩
  · obtain ⟨u', hu', huu'⟩ := ((h.staged (fetchedWord s)).select).exec hdata hu
    refine ⟨u'.commit, ?_, huu'.commit⟩
    have hadmits' : admits t.config t.cur.pc = true := by rwa [h.cur, h.admits]
    rw [step_of_admits (h.run.trans hrun) hadmits', h.nextInstr hpc, h.fetchedWord hpc, hu', andThen_next]

end Sys2Proof.Machine
end

section
/-! Proofs of the statements about the encoding (spec/30_encoding.md): decode and encode, the unmatched words, the
`li` entry, the ignored fields and the expansion of `li`. -/

namespace Sys2Proof

/-! ## The arbiter and the `li` entry -/

/-- A last entry wins where it matches and changes nothing elsewhere (R76). -/
theorem arbiter_append_singleton (table : List Entry) (e : Entry) (w : Word) :
    arbiter (table ++ [e]) w = if e.key.hits w then e.handler else arbiter table w := by
  simp [arbiter, List.foldl_append]

/-- A word for which the arbiter leaves `halt` matches some entry (R76). -/
theorem exists_hits_of_arbiter_ne_halt {table : List Entry} {w : Word} (h : arbiter table w ≠ .halt) :
    ∃ e ∈ table, e.key.hits w = true := by
  induction table using List.reverseRecOn with
  | nil => exact absurd rfl h
  | append_singleton table e ih =>
    rw [arbiter_append_singleton] at h
    split at h
    case isTrue he => exact ⟨e, by simp, he⟩
    case isFalse =>
      obtain ⟨e', hmem, he'⟩ := ih h
      exact ⟨e', by simp [hmem], he'⟩

/-- The `li` entry stands last in the table (R58). -/
theorem Config.table_of_liEntry {c : Config} {m : MaskMatch} (h : c.liEntry = some m) :
    c.table = Config.table { c with liEntry := none } ++ [⟨m, .li⟩] := by
  simp [Config.table, h]

/-- Settles O8: the arbiter keeps the last match, and the `li` entry stands last. -/
theorem liEntryWinsOnItsWords : Obligations.LiEntryWinsOnItsWords := by
  intro c m hm w
  simp only [decodeWith, Config.table_of_liEntry hm, arbiter_append_singleton]
  refine ⟨fun hit => ?_, fun miss => ?_⟩
  · rw [if_pos hit]
    rfl
  · rw [if_neg (by simp [miss])]

/-! ## Disjoint entries -/

/-- A word matches at most one of two disjoint pairs (R57). -/
theorem MaskMatch.hits_eq_false_of_disjoint {a b : MaskMatch} {w : Word} (hab : a.disjoint b = true)
    (ha : a.hits w = true) : b.hits w = false := by
  by_contra hb
  simp only [MaskMatch.hits, beq_iff_eq, Bool.not_eq_false] at ha hb
  have agree : (a.pattern ^^^ b.pattern) &&& a.mask &&& b.mask = 0#32 := by
    rw [← ha, ← hb]
    ext k
    simp only [BitVec.getElem_and, BitVec.getElem_xor, BitVec.getElem_zero]
    cases w[k] <;> cases a.mask[k] <;> cases b.mask[k] <;> rfl
  simp [MaskMatch.disjoint, agree] at hab

theorem pairwiseDisjoint_iff {l : List MaskMatch} :
    pairwiseDisjoint l = true ↔ l.Pairwise fun a b => a.disjoint b = true := by
  induction l with
  | nil => simp [pairwiseDisjoint]
  | cons m ms ih => simp [pairwiseDisjoint, List.pairwise_cons, ih]

/-- Under a well-formed configuration a word of a real row is no word of the `li` entry (R57, R58). -/
theorem liWord_eq_false_of_hits {c : Config} (hc : c.wf = true) {a : MaskMatch} (hmem : a ∈ c.enc.toList)
    {w : Word} (ha : a.hits w = true) : liWord c.liEntry w = false := by
  simp only [Config.wf, Bool.and_eq_true, pairwiseDisjoint_iff, List.pairwise_append] at hc
  obtain ⟨⟨-, -, -, across⟩, -⟩ := hc
  cases hli : c.liEntry with
  | none => rfl
  | some m => exact MaskMatch.hits_eq_false_of_disjoint (across a hmem m (by simp [hli])) ha

/-! ## The rows of R55 -/

/-- The decoder over the numbers of R55, with or without a `li` entry. -/
theorem decodeWith_specEnc {c : Config} (h : c.enc = specEnc) (w : Word) :
    decodeWith c w = if liWord c.liEntry w then .li w else (rowOf (opcodeOf w) (functOf w)).view w := by
  rw [decodeWith, arbiter_specEnc h]
  split <;> rfl

theorem decode_eq_view_rowOf (w : Word) : decode w = (rowOf (opcodeOf w) (functOf w)).view w :=
  decodeWith_specEnc rfl w

theorem rowOf_ne_li (op fn : BitVec 6) : rowOf op fn ≠ .li := by
  apply rowOf_elim (· ≠ Handler.li) <;> simp

/-- A word that selects a row of R55 is no word of a disjoint `li` entry. -/
theorem liWord_eq_false_of_rowOf_ne_halt {c : Config} (henc : c.enc = specEnc) (hc : c.wf = true) {w : Word}
    (h : rowOf (opcodeOf w) (functOf w) ≠ .halt) : liWord c.liEntry w = false := by
  have selected : arbiter Config.chosen.table w ≠ .halt := by
    rw [arbiter_specEnc rfl]
    exact h
  obtain ⟨e, hmem, he⟩ := exists_hits_of_arbiter_ne_halt selected
  have keys : ∀ e ∈ Config.chosen.table, e.key ∈ specEnc.toList := by decide
  exact liWord_eq_false_of_hits hc (henc ▸ keys e hmem) he

theorem rowOf_ne_halt_of_mem_realOpcodes {op : BitVec 6} (fn : BitVec 6) (h : op ∈ realOpcodes) :
    rowOf op fn ≠ .halt := by
  revert op
  simp [realOpcodes, rowOf]

theorem rowOf_zero_ne_halt_of_mem_realFuncts : ∀ fn ∈ realFuncts, rowOf 0#6 fn ≠ .halt := by decide

/-- No row is selected exactly by the words that R61 lists. -/
theorem rowOf_eq_halt_iff (w : Word) :
    rowOf (opcodeOf w) (functOf w) = .halt ↔ realWord w = false := by
  refine ⟨fun hrow => ?_, fun hreal => Laws.RowOfEncoding.halt w (by simp [Instr.wf, liWord, hreal])⟩
  by_contra hreal
  simp only [realWord, Bool.not_eq_false, Bool.or_eq_true, Bool.and_eq_true, List.contains_iff_mem,
    beq_iff_eq] at hreal
  rcases hreal with hop | ⟨hop, hfn⟩
  · exact rowOf_ne_halt_of_mem_realOpcodes _ hop hrow
  · change opcodeOf w = 0#6 at hop
    rw [hop] at hrow
    exact rowOf_zero_ne_halt_of_mem_realFuncts _ hfn hrow

/-! ## Decode after encode -/

/-- The word of a term that is well formed without a `li` entry selects the term's own row. -/
theorem rowOf_encode : ∀ i : Instr, Laws.RowOfEncoding.Statement i
  | .add rs rt rd shamt => Laws.RowOfEncoding.add rs rt rd shamt
  | .addu rs rt rd shamt => Laws.RowOfEncoding.addu rs rt rd shamt
  | .sub rs rt rd shamt => Laws.RowOfEncoding.sub rs rt rd shamt
  | .subu rs rt rd shamt => Laws.RowOfEncoding.subu rs rt rd shamt
  | .jr rs rt rd shamt => Laws.RowOfEncoding.jr rs rt rd shamt
  | .lui rs rt imm => Laws.RowOfEncoding.lui rs rt imm
  | .ori rs rt imm => Laws.RowOfEncoding.ori rs rt imm
  | .addi rs rt imm => Laws.RowOfEncoding.addi rs rt imm
  | .addiu rs rt imm => Laws.RowOfEncoding.addiu rs rt imm
  | .lw rs rt imm => Laws.RowOfEncoding.lw rs rt imm
  | .sw rs rt imm => Laws.RowOfEncoding.sw rs rt imm
  | .bne rs rt imm => Laws.RowOfEncoding.bne rs rt imm
  | .beq rs rt imm => Laws.RowOfEncoding.beq rs rt imm
  | .bgtz rs rt imm => Laws.RowOfEncoding.bgtz rs rt imm
  | .slti rs rt imm => Laws.RowOfEncoding.slti rs rt imm
  | .sb rs rt imm => Laws.RowOfEncoding.sb rs rt imm
  | .lb rs rt imm => Laws.RowOfEncoding.lb rs rt imm
  | .j address => Laws.RowOfEncoding.j address
  | .jal address => Laws.RowOfEncoding.jal address
  | .li word => Laws.RowOfEncoding.li word
  | .halt word => Laws.RowOfEncoding.halt word

/-- An instruction's own format reads its fields back from its word (R51 to R54). -/
theorem view_handler_encode (i : Instr) : i.handler.view (encode i) = i := by
  cases i <;> simp [Instr.handler, Handler.view, encode]

/-- What a `li` entry asks of a well-formed term: a `li` term is one of its words, a `halt` term none. -/
theorem Instr.wf_cases {li : Option MaskMatch} {i : Instr} (h : i.wf li = true) :
    (i.handler = .li ∧ liWord li (encode i) = true) ∨
    (i.wf none = true ∧ (i.handler = .halt → liWord li (encode i) = false)) := by
  cases i with
  | li w => exact .inl ⟨rfl, h⟩
  | halt w =>
    simp only [Instr.wf, Bool.and_eq_true, Bool.not_eq_true'] at h
    obtain ⟨hreal, hli⟩ := h
    exact .inr ⟨by simp [Instr.wf, hreal, liWord], fun _ => hli⟩
  | _ => exact .inr ⟨rfl, nofun⟩

/-- The arbiter routes the word of a well-formed instruction to its handler (R76, R77). -/
theorem arbiter_encode {c : Config} (henc : c.enc = specEnc) (hc : c.wf = true) {i : Instr}
    (hi : i.wf c.liEntry = true) : arbiter c.table (encode i) = i.handler := by
  rw [arbiter_specEnc henc]
  rcases Instr.wf_cases hi with ⟨hhandler, hli⟩ | ⟨hwf, hhalt⟩
  · rw [if_pos hli, hhandler]
  · have hrow := rowOf_encode i hwf
    have hli : liWord c.liEntry (encode i) = false := by
      by_cases h : i.handler = .halt
      · exact hhalt h
      · exact liWord_eq_false_of_rowOf_ne_halt henc hc (hrow ▸ h)
    rw [if_neg (by simp [hli]), hrow]

/-- Settles O2: the word selects its instruction's handler, whose format reads the fields back. -/
theorem decodeOfEncodeIsIdentity : Obligations.DecodeOfEncodeIsIdentity := by
  intro c henc hc i hi
  rw [decodeWith, arbiter_encode henc hc hi, view_handler_encode]

/-! ## Encode after decode -/

section Refield

variable {w : Word} {op fn : BitVec 6}

theorem jWord_of_opcode (h : opcodeOf w = op) : jWord op (addressOf w) = w := h ▸ jWord_fields w

theorem iWord_of_opcode (h : opcodeOf w = op) : iWord op (rsOf w) (rtOf w) (immOf w) = w :=
  h ▸ iWord_fields w

theorem rWord_of_funct (h : opcodeOf w = 0#6 ∧ functOf w = fn) :
    rWord fn (rsOf w) (rtOf w) (rdOf w) (shamtOf w) = w := h.2 ▸ rWord_fields w h.1

end Refield

/-- A word seen through the row it selects is encoded as itself. -/
theorem encode_view_rowOf (w : Word) : encode ((rowOf (opcodeOf w) (functOf w)).view w) = w := by
  apply rowOf_elim fun h => encode (h.view w) = w
  case jal | j => exact jWord_of_opcode
  case add | addu | sub | subu | jr => exact rWord_of_funct
  case halt => rfl
  all_goals exact iWord_of_opcode

/-- Only the views of `li` and `halt` ask anything of the word. -/
theorem wf_view {li : Option MaskMatch} {h : Handler} {w : Word} (hli : h = .li → liWord li w = true)
    (hhalt : h = .halt → realWord w = false ∧ liWord li w = false) : (h.view w).wf li = true := by
  cases h with
  | li => exact hli rfl
  | halt =>
    obtain ⟨hreal, hnone⟩ := hhalt rfl
    simp [Handler.view, Instr.wf, hreal, hnone]
  | _ => rfl

/-- Settles O3: a word of the `li` entry is kept whole, and every other one is put together again from the fields
of the row it selects. -/
theorem encodeOfDecodeIsIdentity : Obligations.EncodeOfDecodeIsIdentity := by
  intro c henc w
  rw [decodeWith_specEnc henc]
  split
  case isTrue hli => exact ⟨rfl, hli⟩
  case isFalse hli =>
    refine ⟨encode_view_rowOf w, wf_view (fun h => absurd h (rowOf_ne_li _ _)) fun h => ?_⟩
    exact ⟨(rowOf_eq_halt_iff w).1 h, by simpa using hli⟩

/-! ## Unmatched words -/

theorem view_eq_halt_iff (h : Handler) (w : Word) : h.view w = .halt w ↔ h = .halt := by
  cases h <;> simp [Handler.view]

/-- The words outside `realWord`, by opcode and funct (R61). -/
theorem realWord_eq_false_iff (w : Word) :
    realWord w = false ↔ (opcodeOf w = 0#6 ∧ functOf w ∉ realFuncts) ∨ opcodeOf w ∉ 0#6 :: realOpcodes := by
  have fields : realWord w = (realOpcodes.contains (opcodeOf w) ||
      (opcodeOf w == 0#6 && realFuncts.contains (functOf w))) := rfl
  by_cases h0 : opcodeOf w = 0#6
  · have noZero : 0#6 ∉ realOpcodes := by decide
    simp [fields, h0, noZero]
  · simp [fields, h0]

/-- Settles O4: `halt` is selected exactly where no row of R55 is. -/
theorem unmatchedWordsAreTheListedOnes : Obligations.UnmatchedWordsAreTheListedOnes := by
  intro w
  rw [decode_eq_view_rowOf, view_eq_halt_iff, rowOf_eq_halt_iff]
  exact realWord_eq_false_iff w

/-! ## Written words -/

theorem decode_encode {i : Instr} (h : i.wf none = true) : decode (encode i) = i :=
  decodeOfEncodeIsIdentity Config.chosen rfl (by decide) i h

/-- Settles O1: each word is the encoding of the instruction beside it, bit by bit. -/
theorem writtenWordsDecode : Obligations.WrittenWordsDecode :=
  ⟨decode_encode (i := .add 9 10 8 0) rfl, decode_encode (i := .jr 31 0 0 0) rfl,
    decode_encode (i := .ori 8 9 0x00F0) rfl, decode_encode (i := .lw 8 11 8) rfl,
    decode_encode (i := .bne 1 0 0xFFFE) rfl, decode_encode (i := .jal 0x0100004) rfl,
    decode_encode (i := .halt 0) rfl⟩

end Sys2Proof

namespace Sys2Proof.Machine

/-! ## Ignored fields -/

/-- Settles O27: the meanings take the ignored fields and do not read them (R60). -/
theorem ignoredFieldsHaveNoEffect : Obligations.IgnoredFieldsHaveNoEffect := by
  intro rs rt rd r r' h h' imm imm' s
  exact ⟨rfl, rfl, rfl, rfl, rfl, rfl, rfl, rfl, rfl, rfl, rfl⟩

/-! ## The expansion of `li` -/

theorem upperImm_eq_append (imm : Imm) : upperImm imm = imm ++ 0#16 := by
  rw [upperImm, BitVec.shiftLeft_eq_concat_of_lt (by decide), ← BitVec.setWidth_eq_extractLsb' (by decide), zext32,
    BitVec.setWidth_setWidth_of_le _ (by decide), BitVec.setWidth_eq]
  rfl

theorem zext32_eq_append (imm : Imm) : zext32 imm = 0#16 ++ imm := BitVec.setWidth_eq_append (by decide)

/-- The two halves of a word, put together as `lui` and `ori` do (R63). -/
theorem upperImm_or_zext32 (v : Word) :
    upperImm (v.extractLsb' 16 16) ||| zext32 (v.extractLsb' 0 16) = v := by
  rw [upperImm_eq_append, zext32_eq_append, BitVec.or_append, BitVec.or_zero, BitVec.zero_or]
  exact (BitVec.extractLsb'_append_extractLsb'_eq_extractLsb' rfl).trans BitVec.extractLsb'_eq_self

/-- Settles O53: after its commit the `ori` reads what the `lui` wrote. -/
theorem liExpansionLoadsValue : Obligations.LiExpansionLoadsValue := by
  intro rt v s hrt
  refine ⟨_, _, rfl, rfl, ?_⟩
  have written (s : State) (x : Word) : (s.setX rt x).commit.x rt = x := by
    rw [State.setX_commit_x, if_pos ⟨rfl, hrt⟩]
  rw [written, written, upperImm_or_zext32]

end Sys2Proof.Machine
end

section
/-! Proofs of the statements about the cycle and its dispatch (spec/40_cycle_dispatch.md): the arbiter, the match
vector, what a step does and when it answers a next state, the invariant, and the datapath. -/

namespace Sys2Proof

/-! ## The arbiter -/

/-- Entries that miss a word do not change what the entries before them select (R76). -/
theorem arbiter_append_of_misses (front : List Entry) {back : List Entry} {w : Word}
    (h : ∀ e ∈ back, e.key.hits w = false) : arbiter (front ++ back) w = arbiter front w := by
  induction back using List.reverseRecOn with
  | nil => rw [List.append_nil]
  | append_singleton back e ih =>
    have miss : e.key.hits w = false := h e (by simp)
    rw [← List.append_assoc, arbiter_append_singleton, miss]
    exact ih fun e' he' => h e' (by simp [he'])

/-- Settles O5: the entries after the last match miss, and without a match all of them do. -/
theorem arbiterSelectsLastMatch : Obligations.ArbiterSelectsLastMatch := by
  intro table w
  refine ⟨fun misses => arbiter_append_of_misses [] misses, ?_⟩
  rintro front e back rfl hit misses
  rw [List.append_cons, arbiter_append_of_misses _ misses, arbiter_append_singleton, if_pos hit]

/-! ## Disjoint tables -/

/-- The keys of the dispatch table: the 19 rows, then the `li` entry (R55, R58). -/
theorem Config.table_keys (c : Config) : c.table.map Entry.key = c.enc.toList ++ c.liEntry.toList := by
  have rows : (List.zipWith Entry.mk c.enc.toList Handler.real).map Entry.key = c.enc.toList := by
    rw [← List.map_uncurry_zip_eq_zipWith, List.map_map]
    exact List.map_fst_zip (by simp [Handler.real])
  rw [Config.table, List.map_append, rows, List.map_map]
  exact congrArg _ (List.map_id _)

/-- What a well-formed configuration says of its table: patterns lie inside their masks, and no two
entries match one word (R57, R58). -/
theorem Config.table_of_wf {c : Config} (hc : c.wf = true) :
    (∀ e ∈ c.table, e.key.inMask = true) ∧
      c.table.Pairwise fun e e' => e.key.disjoint e'.key = true := by
  simp only [Config.wf, Bool.and_eq_true, ← Config.table_keys, pairwiseDisjoint_iff, List.pairwise_map] at hc
  obtain ⟨⟨inMask, disjoint⟩, -⟩ := hc
  exact ⟨by simpa using inMask, disjoint⟩

/-- A word sets at most one bit of the match vector of a table of disjoint entries (R75). -/
theorem count_matchVector_le_one {table : List Entry} (w : Word)
    (h : table.Pairwise fun e e' => e.key.disjoint e'.key = true) :
    (matchVector table w).count true ≤ 1 := by
  induction table with
  | nil => simp [matchVector]
  | cons e rest ih =>
    obtain ⟨first, later⟩ := List.pairwise_cons.1 h
    change (e.key.hits w :: matchVector rest w).count true ≤ 1
    cases hit : e.key.hits w
    · simpa using ih later
    · have misses : true ∉ matchVector rest w := by
        simp only [matchVector, List.mem_map, not_exists, not_and, Bool.not_eq_true]
        exact fun e' he' => MaskMatch.hits_eq_false_of_disjoint (first e' he') hit
      rw [List.count_cons_self, List.count_eq_zero.2 misses]

/-- Settles O6: a well-formed configuration has a table of disjoint entries. -/
theorem matchVectorHasAtMostOneBit : Obligations.MatchVectorHasAtMostOneBit :=
  ⟨by decide, fun _ hc w => count_matchVector_le_one w (Config.table_of_wf hc).2⟩

/-- A pattern inside its mask matches its own pair (R58). -/
theorem MaskMatch.hits_pattern {m : MaskMatch} (h : m.inMask = true) : m.hits m.pattern = true := by
  have outside : m.pattern &&& ~~~m.mask = 0#32 := beq_iff_eq.1 h
  rw [MaskMatch.hits, beq_iff_eq]
  calc m.pattern &&& m.mask
    _ = m.pattern &&& m.mask ||| m.pattern &&& ~~~m.mask := by rw [outside, BitVec.or_zero]
    _ = m.pattern := by
      ext k
      cases hk : m.mask[k] <;> simp [hk]

/-- Settles O7: the entries after a matching one are disjoint from it, so it is the last match. -/
theorem dispatchIsComplete : Obligations.DispatchIsComplete := by
  intro c hc e he
  obtain ⟨inMask, disjoint⟩ := Config.table_of_wf hc
  refine ⟨MaskMatch.hits_pattern (inMask e he), fun w hit => ?_⟩
  obtain ⟨front, back, htable⟩ := List.append_of_mem he
  rw [htable, List.pairwise_append] at disjoint
  obtain ⟨-, fromEntry, -⟩ := disjoint
  obtain ⟨toBack, -⟩ := List.pairwise_cons.1 fromEntry
  exact (arbiterSelectsLastMatch c.table w).2 front e back htable hit fun e' he' =>
    MaskMatch.hits_eq_false_of_disjoint (toBack e' he') hit

end Sys2Proof

namespace Sys2Proof.Machine

/-! ## The step -/

/-- Settles O29: the state that fetch and decode leave, and the commit, written out field by field. -/
theorem stepRunsDecodedInstruction : Obligations.StepRunsDecodedInstruction :=
  fun _ hrun => ⟨step_of_admits hrun, step_of_not_admits hrun⟩

/-- A completed execute had its data address, if it has one, inside the contract. -/
theorem admits_of_exec_next {i : Instr} {s t : State} {rs : RegIdx} (h : exec i s = .next t)
    (hbase : dataBase i = some rs) : admits s.config (s.x rs) = true := by
  by_contra hadmits
  rw [exec_of_not_admits hbase (by simpa using hadmits)] at h
  exact stopAt_ne_next t h

/-- Settles O30: fetch needs the PC in the contract, execute the data address, and nothing else stops. -/
theorem stepIsTotalInsideContract : Obligations.StepIsTotalInsideContract := by
  intro s hrun
  constructor
  · rintro ⟨t, hstep⟩
    rcases step_next_cases hstep with ⟨hhalted, -⟩ | ⟨-, hpc, u, hu, -⟩
    · simp [hrun] at hhalted
    · exact ⟨hpc, fun rs hbase => (admits_of_exec_next hu hbase :)⟩
  · rintro ⟨hpc, hdata⟩
    obtain ⟨u, hu⟩ := exec_of_admits (s := (s.staged (fetchedWord s)).select) hdata
    exact ⟨u.commit, by rw [step_of_admits hrun hpc, hu, andThen_next]⟩

/-! ## The invariant -/

/-- No instruction changes the parameters. -/
theorem exec_config {i : Instr} {s t : State} (h : exec i s = .next t) : t.config = s.config := by
  rcases exec_next_cases h with ⟨_, _, _, _, rfl⟩ | ⟨_, _, _, _, rfl⟩ | ⟨_, _, _, rfl⟩ |
    ⟨_, _, _, _, _, rfl⟩ | ⟨_, rfl⟩
  all_goals rfl

/-- No step changes the parameters. -/
theorem step_config {s t : State} (h : step s = .next t) : t.config = s.config := by
  rcases step_next_cases h with ⟨-, rfl⟩ | ⟨-, -, u, hu, rfl⟩
  · rfl
  · exact (exec_config hu :)

/-- Every step keeps the canonical form of memory: it leaves it alone or places one word in it. -/
theorem step_mem_wf {s t : State} (hwf : s.mem.wf = true) (h : step s = .next t) : t.mem.wf = true := by
  cases hrun : s.run
  · obtain rfl : s = t := Host.Outcome.next.inj ((step_of_halted hrun).symm.trans h)
    exact hwf
  · rcases step_mem_cases hrun h with hmem | ⟨rs, v, -, -, hmem⟩ <;> rw [hmem]
    · exact hwf
    · exact Memory.wf_writeWord _ _ _ hwf

/-- Every step leaves snapshots that agree where they did: the commit makes them so (R81). -/
theorem step_agree {s t : State} (hagree : s.nxt = s.cur) (h : step s = .next t) : t.nxt = t.cur := by
  rcases step_next_cases h with ⟨-, rfl⟩ | ⟨-, -, u, -, rfl⟩
  · exact hagree
  · rfl

/-- Settles O40: each field of the invariant is kept by itself. -/
theorem stepKeepsInvariant : Obligations.StepKeepsInvariant := by
  intro s t ⟨hmem, hconfig, hagree⟩ hstep
  have kept := step_config hstep
  exact ⟨⟨step_mem_wf hmem hstep, kept ▸ hconfig, step_agree hagree hstep⟩, kept⟩

/-! ## The datapath -/

section StagedPc

variable {s : State} (hpc : s.nxt.pc = s.pc + 4#32)
include hpc

/-- A store leaves the staged PC, so selecting `pc + 4` after it changes nothing. -/
theorem memWrite_andThen_setPc (a v : Word) :
    (andThen (s.memWrite a v) fun t => .next (t.setPc (s.pc + 4#32))) = s.memWrite a v := by
  cases hadmits : admits s.config a
  · rw [State.memWrite_of_not_admits v hadmits, andThen_stopAt]
  · rw [State.memWrite_of_admits v hadmits, andThen_next, State.setPc_self _ (by simpa using hpc)]

/-- A branch on `Y = 1` is taken where the comparison holds (R79, R123). -/
theorem setPc_branchIfY (b : Bool) :
    s.setPc (nextPcValue .branchIfY (boolWord b) s) = branchIf b (immOf s.iw) s := by
  cases b
  · exact s.setPc_self hpc
  · change s.setPc (s.pc + 4#32 + branchOffset (immOf s.iw)) = s.setPc (s.nxt.pc + branchOffset (immOf s.iw))
    rw [hpc]

/-- A branch on `Y = 0` is taken where the comparison fails: it is the one on `Y = 1` of the opposite. -/
theorem setPc_branchUnlessY (b : Bool) :
    s.setPc (nextPcValue .branchUnlessY (boolWord b) s) = branchIf (!b) (immOf s.iw) s := by
  rw [← setPc_branchIfY hpc]
  cases b <;> rfl

/-- The datapath under a handler's control row does what the handler does, once `pc + 4` is staged. -/
theorem datapath_eq_exec (h : Handler) : datapath (controlRow h) s = exec (h.view s.iw) s := by
  cases h with
  | add | addu | sub | subu | lui | ori | addi | addiu | slti =>
    exact congrArg Host.Outcome.next (s.setX_setPc_self _ _ hpc)
  | lw | lb =>
    exact congrArg (andThen _) (funext fun _ => congrArg Host.Outcome.next (s.setX_setPc_self _ _ hpc))
  | sw => exact memWrite_andThen_setPc hpc _ _
  | sb => exact congrArg (andThen _) (funext fun _ => memWrite_andThen_setPc hpc _ _)
  | beq => exact congrArg Host.Outcome.next (setPc_branchIfY hpc _)
  | bne | bgtz => exact congrArg Host.Outcome.next (setPc_branchUnlessY hpc _)
  | jr | j | jal => rfl
  | li => exact congrArg Host.Outcome.next (s.setPc_self hpc)
  | halt => exact congrArg (fun t => Host.Outcome.next t.clearRun) (s.setPc_self hpc)

end StagedPc

/-- Settles O48: fetch stages `pc + 4`, and from there each control row does what its handler does. -/
theorem datapathEqualsHandlers : Obligations.DatapathEqualsHandlers := by
  intro s
  have execute (w : Word) : datapath (controlRow (s.staged w).select.sel) (s.staged w).select =
      exec (s.staged w).select.instr (s.staged w).select := datapath_eq_exec rfl _
  simp only [datapathStep, step]
  cases hadmits : admits s.config s.cur.pc
  · simp only [State.fetch_of_not_admits hadmits, andThen_stopAt]
  · simp only [State.fetch_of_admits hadmits, andThen_next, execute]

end Sys2Proof.Machine
end

section
/-! Proofs of the statements about the register-format instructions (spec/41_register_format.md): `add`, `addu`,
`sub`, `subu` and `jr`, and the pairs of instructions the spec calls identical. -/

namespace Sys2Proof.Machine

/-! ## Encodings and frames -/

/-- A row of R55 is an encoding: its words decode to the format of its handler (R54, R55). -/
theorem encodedBy_of_row {pattern mask : Word} {h : Handler}
    (row : ⟨⟨pattern, mask⟩, h⟩ ∈ List.zipWith Entry.mk specEnc.toList Handler.real) :
    EncodedBy pattern mask h.view :=
  fun _ hit => decode_of_row row (beq_iff_eq.2 hit)

/-- The frame of `x[r] <- v` (R14). -/
theorem writesReg_setX (s : State) (r : RegIdx) (v : Word) : WritesReg s (s.setX r v) r v :=
  ⟨fun q => s.nxt.read_write r q v, s.nxt.write_pc r v, rfl, fun _ => rfl, rfl, rfl, rfl, rfl⟩

/-! ## Wrapped arithmetic -/

/-- The difference of two words is that of their values as integers, modulo 2^32 (R92). -/
theorem sub_eq_ofInt (a b : Word) : a - b = BitVec.ofInt 32 (a.toNat - b.toNat) := by
  apply BitVec.eq_of_toNat_eq
  rw [BitVec.toNat_sub, BitVec.toNat_ofInt]
  omega

/-! ## Identical pairs -/

/-- Settles O28: three pairs have one meaning, and `bgtz` compares with the 0 that register 0 reads. -/
theorem identicalPairs : Obligations.IdenticalPairs := by
  intro rs rt rd h imm s
  have zero : s.x 0#5 = 0#32 := s.cur.read_zero
  refine ⟨rfl, rfl, rfl, ?_⟩
  simp only [exec, execBgtz, execBne, zero]

/-! ## The instructions -/

/-- Settles O11: both rows are in the table, and `addu` does what `add` does. -/
theorem addWritesWrappedSum : Obligations.AddWritesWrappedSum := by
  refine ⟨encodedBy_of_row (h := .add) (by decide), encodedBy_of_row (h := .addu) (by decide), ?_⟩
  intro rs rt rd shamt s
  have written := writesReg_setX s rd (s.x rs + s.x rt)
  rw [← BitVec.add_def]
  exact ⟨⟨_, rfl, written⟩, ⟨_, rfl, written⟩⟩

/-- Settles O12: both rows are in the table, and `subu` does what `sub` does. -/
theorem subWritesWrappedDifference : Obligations.SubWritesWrappedDifference := by
  refine ⟨encodedBy_of_row (h := .sub) (by decide), encodedBy_of_row (h := .subu) (by decide), ?_⟩
  intro rs rt rd shamt s
  have written := writesReg_setX s rd (s.x rs - s.x rt)
  rw [← sub_eq_ofInt]
  exact ⟨⟨_, rfl, written⟩, ⟨_, rfl, written⟩⟩

/-- Settles O13: the row is in the table, and `jr` is `pc <- x[rs]`. -/
theorem jrSetsNextPc : Obligations.JrSetsNextPc :=
  ⟨encodedBy_of_row (h := .jr) (by decide), fun rs _ _ _ s => ⟨_, rfl, setsPc_setPc s (s.x rs)⟩⟩

end Sys2Proof.Machine
end

section
/-! Proofs of the statements about the immediate-format ALU instructions (spec/42_immediate_alu.md): `lui`, `ori`,
`addi`, `addiu` and `slti`. -/

namespace Sys2Proof.Machine

/-! ## The results as the rules write them -/

/-- An OR with a zero-extended immediate passes the upper half through (R101). -/
theorem or_zext32_eq_append (a : Word) (imm : Imm) :
    a ||| zext32 imm = a.extractLsb' 16 16 ++ (a.extractLsb' 0 16 ||| imm) := by
  have halves : a = a.extractLsb' 16 16 ++ a.extractLsb' 0 16 :=
    (BitVec.extractLsb'_append_extractLsb' (w := 16) (len := 16)).symm
  calc a ||| zext32 imm
    _ = (a.extractLsb' 16 16 ++ a.extractLsb' 0 16) ||| (0#16 ++ imm) := by rw [← halves, zext32_eq_append]
    _ = a.extractLsb' 16 16 ++ (a.extractLsb' 0 16 ||| imm) := by rw [BitVec.or_append, BitVec.or_zero]

/-- The sum with a sign-extended immediate is the one with its signed value, modulo 2^32 (R102). -/
theorem add_sext32_eq_ofInt (a : Word) (imm : Imm) :
    a + sext32 imm = BitVec.ofInt 32 (a.toNat + imm.toInt) := by
  rw [BitVec.ofInt_add, BitVec.ofInt_natCast, BitVec.ofNat_toNat, BitVec.setWidth_eq]
  rfl

/-- Zero extension keeps the immediate's value, so `slti` compares it as a raw number (R104). -/
theorem boolWord_ult_zext32 (a : Word) (imm : Imm) :
    boolWord (a.ult (zext32 imm)) = if a.toNat < imm.toNat then 1#32 else 0#32 := by
  have value : (zext32 imm).toNat = imm.toNat := BitVec.toNat_setWidth_of_le (by decide)
  simp only [boolWord, BitVec.ult, value, decide_eq_true_eq]

/-! ## The instructions -/

/-- An instruction that executes as `x[r] <- v` completes with that frame, however `v` is written (R14). -/
theorem writesReg_of_exec {i : Instr} {s : State} {r : RegIdx} {v w : Word}
    (hexec : exec i s = .next (s.setX r v)) (value : v = w) :
    ∃ t, exec i s = .next t ∧ WritesReg s t r w :=
  ⟨_, hexec, value ▸ writesReg_setX s r v⟩

/-- Settles O14: the row is in the table, and `lui` writes the immediate above 16 zeros. -/
theorem luiLoadsUpperHalf : Obligations.LuiLoadsUpperHalf :=
  ⟨encodedBy_of_row (h := .lui) (by decide), fun _ _ imm _ => writesReg_of_exec rfl (upperImm_eq_append imm)⟩

/-- Settles O15: the row is in the table, and the OR leaves the upper half of `x[rs]`. -/
theorem oriOrsZeroExtended : Obligations.OriOrsZeroExtended :=
  ⟨encodedBy_of_row (h := .ori) (by decide), fun rs _ imm s =>
    writesReg_of_exec rfl (or_zext32_eq_append (s.x rs) imm)⟩

/-- Settles O16: the row is in the table, and `addi` adds the sign-extended immediate. -/
theorem addiAddsSignExtended : Obligations.AddiAddsSignExtended :=
  ⟨encodedBy_of_row (h := .addi) (by decide), fun rs _ imm s =>
    writesReg_of_exec rfl (add_sext32_eq_ofInt (s.x rs) imm)⟩

/-- Settles O17: the row is in the table, and `addiu` does what `ori` does (decision D7). -/
theorem addiuIsBitwiseOr : Obligations.AddiuIsBitwiseOr := by
  refine ⟨encodedBy_of_row (h := .addiu) (by decide), fun rs rt imm s => ?_⟩
  obtain ⟨-, -, addiuIsOri, -⟩ := identicalPairs rs rt 0 0 imm s
  rw [addiuIsOri]
  exact oriOrsZeroExtended.2 rs rt imm s

/-- Settles O18: the row is in the table, and `slti` writes the unsigned comparison. -/
theorem sltiComparesUnsigned : Obligations.SltiComparesUnsigned :=
  ⟨encodedBy_of_row (h := .slti) (by decide), fun rs _ imm s =>
    writesReg_of_exec rfl (boolWord_ult_zext32 (s.x rs) imm)⟩

end Sys2Proof.Machine
end

section
/-! Proofs of the statements about the loads and stores (spec/43_load_store.md): `lw`, `lb`, `sw` and `sb`. -/

namespace Sys2Proof.Machine

/-! ## The low byte of a word -/

/-- A word is its bits 31:8 above its low byte. -/
theorem append_low_byte (w : Word) : w.extractLsb' 8 24 ++ w.extractLsb' 0 8 = w :=
  BitVec.extractLsb'_append_extractLsb'

/-- Masking with 0xFF is zero extension of the low byte (R112). -/
theorem lowByte_eq_append (w : Word) : lowByte w = 0#24 ++ w.extractLsb' 0 8 := by
  calc lowByte w
    _ = (w.extractLsb' 8 24 ++ w.extractLsb' 0 8) &&& (0#24 ++ BitVec.allOnes 8) := by
      rw [append_low_byte]; rfl
    _ = 0#24 ++ w.extractLsb' 0 8 := by rw [BitVec.and_append, BitVec.and_zero, BitVec.and_allOnes]

/-- Masking with 0xFFFFFF00 clears the low byte (R113). -/
theorem and_high_mask_eq_append (w : Word) : w &&& 0xFFFFFF00#32 = w.extractLsb' 8 24 ++ 0#8 := by
  calc w &&& 0xFFFFFF00#32
    _ = (w.extractLsb' 8 24 ++ w.extractLsb' 0 8) &&& (BitVec.allOnes 24 ++ 0#8) := by
      rw [append_low_byte]; rfl
    _ = w.extractLsb' 8 24 ++ 0#8 := by rw [BitVec.and_append, BitVec.and_allOnes, BitVec.and_zero]

/-- The merged word is the upper three bytes of the one above the low byte of the other (R113). -/
theorem mergeLowByte_eq_append (w v : Word) :
    mergeLowByte w v = w.extractLsb' 8 24 ++ v.extractLsb' 0 8 := by
  calc mergeLowByte w v
    _ = (w &&& 0xFFFFFF00#32) ||| lowByte v := rfl
    _ = w.extractLsb' 8 24 ++ v.extractLsb' 0 8 := by
      rw [and_high_mask_eq_append, lowByte_eq_append, BitVec.or_append, BitVec.or_zero, BitVec.zero_or]

/-! ## The frame of a store -/

/-- The four bytes of a placed word, by their distance from its address (R32, R33). -/
theorem State.byteAt_placeWord_same (s : State) (a v : Word) {k : Nat} (hk : k < 4) :
    (s.placeWord a v).byteAt (a + BitVec.ofNat 32 k) = s.config.endian.byteOf v k := by
  rw [State.byteAt_placeWord]
  interval_cases k <;> simp

/-- Placing a word changes the four bytes it lies in, and nothing else (R32). -/
theorem storesWord_placeWord (s : State) (a v : Word) : StoresWord s (s.placeWord a v) a v :=
  ⟨fun _ hk => s.byteAt_placeWord_same a v hk, fun _ hb => s.byteAt_placeWord_of_ne v hb,
    fun _ => rfl, rfl, rfl, rfl, rfl, rfl, rfl⟩

/-! ## The instructions -/

/-- Settles O19: the read answers the word at `x[rs]`, and the load writes it, or its low byte, to `x[rt]`. -/
theorem loadsReadAtBaseRegister : Obligations.LoadsReadAtBaseRegister := by
  refine ⟨encodedBy_of_row (h := .lw) (by decide), encodedBy_of_row (h := .lb) (by decide), ?_⟩
  intro rs rt imm s hadmits
  have hread : s.memRead (s.x rs) = .next (s.wordAt (s.x rs)) := State.memRead_of_admits hadmits
  constructor
  · exact writesReg_of_exec (andThen_eq_next.2 ⟨_, hread, rfl⟩) rfl
  · exact writesReg_of_exec (andThen_eq_next.2 ⟨_, hread, rfl⟩) (lowByte_eq_append _)

/-- Settles O20: `sw` places `x[rt]` at `x[rs]`; `sb` reads the word there and places it merged. -/
theorem storesWriteAtBaseRegister : Obligations.StoresWriteAtBaseRegister := by
  refine ⟨encodedBy_of_row (h := .sw) (by decide), encodedBy_of_row (h := .sb) (by decide), ?_⟩
  intro rs rt imm s hadmits
  have hread : s.memRead (s.x rs) = .next (s.wordAt (s.x rs)) := State.memRead_of_admits hadmits
  have hwrite (v : Word) : s.memWrite (s.x rs) v = .next (s.placeWord (s.x rs) v) :=
    State.memWrite_of_admits v hadmits
  constructor
  · exact ⟨_, hwrite _, storesWord_placeWord ..⟩
  · rw [← mergeLowByte_eq_append]
    exact ⟨_, andThen_eq_next.2 ⟨_, hread, hwrite _⟩, storesWord_placeWord ..⟩

end Sys2Proof.Machine
end

section
/-! Proofs of the statements about the conditional branches (spec/44_branch.md): `beq`, `bne` and `bgtz`. -/

namespace Sys2Proof.Machine

/-! ## The branch rule -/

/-- The offset of a taken branch is one word less than the signed immediate, in bytes modulo 2^32 (R123). -/
theorem branchOffset_eq_ofInt (imm : Imm) : branchOffset imm = BitVec.ofInt 32 ((imm.toInt - 1) * 4) := by
  calc branchOffset imm
    _ = (sext32 imm - 1#32) * 4#32 := BitVec.shiftLeft_eq_mul_twoPow _ 2
    _ = BitVec.ofInt 32 ((imm.toInt - 1) * 4) := by
      rw [BitVec.ofInt_mul, Int.sub_eq_add_neg, BitVec.ofInt_add, BitVec.sub_eq_add_neg]
      rfl

/-- The frame of a branch: the staged PC moves by the offset when the condition holds (R123). -/
theorem setsPc_branchIf (s : State) (imm : Imm) {taken : Bool} {p : Prop} [Decidable p]
    (condition : taken = true ↔ p) :
    SetsPc s (branchIf taken imm s)
      (if p then s.nxt.pc + BitVec.ofInt 32 ((imm.toInt - 1) * 4) else s.nxt.pc) := by
  rw [← branchOffset_eq_ofInt]
  cases taken
  · rw [if_neg (condition.not.1 Bool.false_ne_true)]
    exact setsPc_setPc s s.nxt.pc
  · rw [if_pos (condition.1 rfl)]
    exact setsPc_setPc s (s.nxt.pc + branchOffset imm)

/-- Not zero is greater than zero as an unsigned number, the condition of `bgtz` (R122). -/
theorem bne_zero_iff_toNat_pos (a : Word) : (a != 0#32) = true ↔ 0 < a.toNat :=
  bne_iff_ne.trans (BitVec.toNat_ne.trans Nat.pos_iff_ne_zero.symm)

/-! ## The instructions -/

/-- Settles O22: the rows are in the table, and each instruction is the branch rule with its own condition. -/
theorem branchesAdvanceWhenTaken : Obligations.BranchesAdvanceWhenTaken := by
  refine ⟨encodedBy_of_row (h := .beq) (by decide), encodedBy_of_row (h := .bne) (by decide),
    encodedBy_of_row (h := .bgtz) (by decide), fun rs rt imm s => ⟨?beq, ?bne, ?bgtz⟩⟩
  case beq => exact ⟨_, rfl, setsPc_branchIf s imm beq_iff_eq⟩
  case bne => exact ⟨_, rfl, setsPc_branchIf s imm bne_iff_ne⟩
  case bgtz => exact ⟨_, rfl, setsPc_branchIf s imm (bne_zero_iff_toNat_pos (s.x rs))⟩

end Sys2Proof.Machine
end

section
/-! Proofs of the statements about the jumps (spec/45_jump.md): `j` and `jal`. -/

namespace Sys2Proof.Machine

/-- The registers after a link and a jump: register 31 is not register 0, so its write is never discarded, and
the jump keeps it (R14, R17, R131). -/
theorem read_setX_link_setPc (s : State) (v p : Word) (q : RegIdx) :
    ((s.setX 31#5 v).setPc p).nxt.read q = if q = 31#5 then v else s.nxt.read q :=
  (s.nxt.read_write 31#5 q v).trans (if_congr (and_iff_left (by decide)) rfl rfl)

/-- Settles O23: the row is in the table, and `j` is `pc <- t` with `t` the target by bit fields. -/
theorem jumpTargetLaw : Obligations.JumpTargetLaw := by
  refine ⟨encodedBy_of_row (h := .j) (by decide), fun address s => ?_⟩
  rw [← jumpTarget_eq_append]
  exact ⟨_, rfl, setsPc_setPc s (jumpTarget s.pc address)⟩

/-- Settles O24: the row is in the table, and `jal` is the write of the link, with its frame, then `j`'s jump. -/
theorem jalLinksAndJumps : Obligations.JalLinksAndJumps := by
  refine ⟨encodedBy_of_row (h := .jal) (by decide), fun address s => ?_⟩
  obtain ⟨-, -, run, memory, inputs⟩ := writesReg_setX s 31#5 (s.cur.pc + 4#32)
  exact ⟨_, rfl, jumpTarget_eq_append _ _, read_setX_link_setPc s _ _, run, memory, inputs⟩

end Sys2Proof.Machine
end

section
/-! Proofs of the statements about the pseudo entry and the fallback (spec/46_pseudo_halt.md): `li` and `halt`. -/

namespace Sys2Proof

/-- A handler's view of a word is an instruction of that handler (R54). -/
theorem handler_view (h : Handler) (w : Word) : (h.view w).handler = h := by
  cases h <;> rfl

/-- In a table without a row for `halt`, the arbiter leaves `halt` exactly where no entry matches (R76). -/
theorem arbiter_eq_halt_iff {table : List Entry} (h : ∀ e ∈ table, e.handler ≠ .halt) (w : Word) :
    arbiter table w = .halt ↔ ∀ e ∈ table, e.key.hits w = false := by
  induction table using List.reverseRecOn with
  | nil => simp [arbiter]
  | append_singleton table e ih =>
    have last : e.handler ≠ .halt := h e (by simp)
    have front := ih fun e' he' => h e' (by simp [he'])
    rw [arbiter_append_singleton, List.forall_mem_append, ← front, List.forall_mem_singleton]
    cases e.key.hits w <;> simp [last]

/-- Under the chosen table `halt` is selected exactly where no row of R55 matches (R61, R76). -/
theorem decode_eq_halt_iff (w : Word) :
    decode w = .halt w ↔ ∀ e ∈ Config.chosen.table, e.key.hits w = false :=
  (view_eq_halt_iff _ w).trans (arbiter_eq_halt_iff (by decide) w)

/-- Without a `li` entry no word decodes to `li` (R58). -/
theorem decode_ne_li (w v : Word) : decode w ≠ .li v := by
  intro hdecode
  have row : rowOf (opcodeOf w) (functOf w) = .li := by
    rw [← handler_view (rowOf _ _) w, ← decode_eq_view_rowOf, hdecode]
    rfl
  exact rowOf_ne_li _ _ row

end Sys2Proof

namespace Sys2Proof.Machine

/-- Settles O25: the meaning of `li` is the state it is given, and no row of R55 is a row for `li`. -/
theorem liChangesNothing : Obligations.LiChangesNothing :=
  ⟨fun _ _ => rfl, decode_ne_li⟩

/-- Settles O26: no entry has `halt` for its handler, and the halt event writes `RUN` alone. -/
theorem haltClearsRunOnly : Obligations.HaltClearsRunOnly := by
  refine ⟨decode_eq_halt_iff, fun w s => ⟨s.clearRun, rfl, s.clearRun_run, ?pc, ?regs, ?memory, ?inputs⟩⟩
  case pc => rw [State.clearRun_nxt]
  case regs => exact fun q => by rw [State.clearRun_nxt]
  case memory => exact fun _ => rfl
  case inputs => exact ⟨s.clearRun_cur, s.clearRun_iw, s.clearRun_sel, s.clearRun_config⟩

end Sys2Proof.Machine
end

section
/-! Proofs of the statements about what stands in the place of exceptions (spec/60_exceptions.md): that no state stops
the chosen machine, the halt event, `RUN`, and the halted state. -/

namespace Sys2Proof.Machine

/-! ## No state stops the chosen machine -/

/-- Where all of memory is backed and non-aligned words have a meaning, no address is outside the contract
(R36, R39). -/
theorem admits_of_chosen {c : Config} (hmisaligned : c.misaligned = Config.chosen.misaligned)
    (hregions : c.memRegions = Config.chosen.memRegions) (a : Word) : admits c a = true := by
  have backed (b : Word) : backs c b = true := by
    simpa [backs, hregions, Config.chosen] using b.isLt
  have leBytes : c.misaligned = .leBytes := hmisaligned
  simp [admits, backsWord, backed, leBytes]

/-- Settles O31: a step stops only at an address outside the contract, and there is none. -/
theorem chosenMachineNeverStops : Obligations.ChosenMachineNeverStops := by
  intro s hmisaligned hregions
  rcases step_completes_or_stops s with completes | ⟨a, hadmits, -⟩
  · exact completes
  · simp [admits_of_chosen hmisaligned hregions a] at hadmits

/-! ## `RUN` -/

/-- `halt` has no destination (R15, R141). -/
theorem handler_ne_halt_of_dest {i : Instr} {rd : RegIdx} (h : destOf i = some rd) : i.handler ≠ .halt := by
  cases i with
  | halt w => simp [destOf] at h
  | _ => exact nofun

/-- A store is not `halt`. -/
theorem handler_ne_halt_of_isStore {i : Instr} (h : isStore i = true) : i.handler ≠ .halt := by
  intro hhalt
  simp [isStore, hhalt] at h

/-- Execute keeps `RUN`, but for `halt`, which clears it (R20, R155). -/
theorem exec_run_iff {i : Instr} {s t : State} (h : exec i s = .next t) :
    t.run = true ↔ s.run = true ∧ i.handler ≠ .halt := by
  rcases exec_next_cases h with ⟨rd, v, hdest, -, rfl⟩ | ⟨p, -, -, hhandler, rfl⟩ | ⟨p, hdest, -, rfl⟩ |
    ⟨rs, v, -, -, hstore, rfl⟩ | ⟨hhalt, rfl⟩
  · simp [handler_ne_halt_of_dest hdest]
  · simp [hhandler]
  · simp [handler_ne_halt_of_dest hdest]
  · simp [handler_ne_halt_of_isStore hstore]
  · simp [hhalt]

/-- Settles O36: fetch, decode and commit leave `RUN` alone, and a halted state is its own next state. -/
theorem onlyHaltClearsRunAndNothingSetsIt : Obligations.OnlyHaltClearsRunAndNothingSetsIt := by
  intro s t hstep
  rcases step_next_cases hstep with ⟨hhalted, rfl⟩ | ⟨-, -, u, hu, rfl⟩
  · simp [hhalted]
  · exact (exec_run_iff hu :)

/-! ## The halted state -/

/-- A run goes on from the state its first step answers. -/
theorem run_succ_of_step {M : Host.Core} {s t : M.State} (n : Nat) (h : M.step s = .next t) :
    M.run (n + 1) s = M.run n t := by
  rw [Host.Core.run, h]

/-- A halted machine makes no access (R71). -/
theorem busTrace_of_halted {s : State} (hhalted : s.run = false) : busTrace s = [] := by
  simp [busTrace, hhalted]

/-- Settles O37, by induction on the number of steps: a halted state steps to itself. -/
theorem haltedStateIsFinal : Obligations.HaltedStateIsFinal := by
  intro s hhalted
  refine ⟨fun n => ?_, busTrace_of_halted hhalted⟩
  induction n with
  | zero => rfl
  | succ n ih => exact (run_succ_of_step (M := Sys2Proof.core) n (step_of_halted hhalted)).trans ih

/-! ## The halt event -/

/-- A fetched word that no entry matches is run as `halt` (R61, R76). -/
theorem nextInstr_of_misses {s : State} (misses : ∀ e ∈ s.config.table, e.key.hits (fetchedWord s) = false) :
    nextInstr s = .halt (fetchedWord s) := by
  have hsel : arbiter s.config.table (fetchedWord s) = .halt :=
    (arbiterSelectsLastMatch s.config.table (fetchedWord s)).1 misses
  rw [nextInstr, decodeWith, hsel]
  rfl

/-- Settles O38: the cycle is the halt event on the staged state, committed, and staging keeps the registers. -/
theorem haltEventIsPrecise : Obligations.HaltEventIsPrecise := by
  intro s hrun hadmits misses
  have hstep : step s = .next (s.staged (fetchedWord s)).select.clearRun.commit := by
    rw [step_of_admits hrun hadmits, nextInstr_of_misses misses]
    rfl
  exact ⟨_, hstep, rfl, BitVec.add_sub_cancel _ _, fun q => Snapshot.read_congr rfl q, rfl, rfl⟩

end Sys2Proof.Machine
end

section
/-! Proofs of the statements about reset and loading (spec/70_reset_and_hazards.md): the reset edge, and the words of
a loaded program. -/

namespace Sys2Proof.Machine

/-! ## Reset -/

/-- Settles O50: the reset edge answers `assertReset`, which loads each state element from the parameters. -/
theorem resetEdgeLoadsParameters : Obligations.ResetEdgeLoadsParameters :=
  fun s => ⟨s.assertReset, rfl, rfl, rfl, rfl, rfl, rfl⟩

/-- The first cycle after reset fetches the word at `RESET_PC`, which reset leaves in memory (R171, R172). -/
theorem State.fetch_assertReset {s : State} (h : admits s.config s.config.resetPc = true) :
    s.assertReset.fetch = .next (s.assertReset.staged (s.wordAt s.config.resetPc)) :=
  State.fetch_of_admits (s := s.assertReset) h

/-! ## The words of a loaded program -/

/-- The address `n + 1` words on, from the next word. -/
theorem add_ofNat_four_mul_succ (a : Word) (n : Nat) :
    a + BitVec.ofNat 32 (4 * (n + 1)) = a + 4#32 + BitVec.ofNat 32 (4 * n) := by
  rw [Nat.mul_succ, Nat.add_comm, BitVec.ofNat_add, ← BitVec.add_assoc]

/-- A whole number of words apart, and not around the whole address space, two words share no byte, whatever the
alignment. -/
theorem word_disjoint_add_four_mul (a : Word) {n : Nat} (hpos : 0 < n) (hn : n < 2 ^ 30) :
    ∀ j < 4, ∀ k < 4, a + BitVec.ofNat 32 j ≠ a + BitVec.ofNat 32 (4 * n) + BitVec.ofNat 32 k := by
  intro j hj k hk heq
  rw [BitVec.add_assoc, BitVec.add_right_inj, ← BitVec.ofNat_add] at heq
  have hmod : j % 2 ^ 32 = (4 * n + k) % 2 ^ 32 := by
    simpa only [BitVec.toNat_ofNat] using congrArg BitVec.toNat heq
  omega

@[simp] theorem State.placeWords_config (s : State) (a : Word) (ws : List Word) :
    (s.placeWords a ws).config = s.config := by
  induction ws generalizing s a with
  | nil => rfl
  | cons w ws ih => exact ih (s.placeWord a w) (a + 4#32)

/-- Words placed further on, and not so many that they wrap round to it, leave the word at `a` alone. -/
theorem State.wordAt_placeWords_of_later (s : State) (a : Word) {n : Nat} {ws : List Word} (hpos : 0 < n)
    (hlen : n + ws.length ≤ 2 ^ 30) :
    (s.placeWords (a + BitVec.ofNat 32 (4 * n)) ws).wordAt a = s.wordAt a := by
  induction ws generalizing s n with
  | nil => rfl
  | cons w ws ih =>
    rw [List.length_cons] at hlen
    have hnext : a + BitVec.ofNat 32 (4 * n) + 4#32 = a + BitVec.ofNat 32 (4 * (n + 1)) := by
      rw [add_ofNat_four_mul_succ, add_right_comm]
    rw [State.placeWords, hnext, ih _ (Nat.succ_pos n) (by omega)]
    exact s.wordAt_placeWord_of_ne w (word_disjoint_add_four_mul a hpos (by omega))

/-- The `k`-th word placed from `a` on is read `k` words on: it is placed, and the words after it leave it alone. -/
theorem State.wordAt_placeWords (s : State) (a : Word) {ws : List Word} (hlen : ws.length ≤ 2 ^ 30) {k : Nat}
    (hk : k < ws.length) : (s.placeWords a ws).wordAt (a + BitVec.ofNat 32 (4 * k)) = ws[k] := by
  induction ws generalizing s a k with
  | nil => exact absurd hk (Nat.not_lt_zero k)
  | cons w ws ih =>
    rw [List.length_cons] at hlen hk
    cases k with
    | zero =>
      have hlater : ((s.placeWord a w).placeWords (a + 4#32) ws).wordAt a = (s.placeWord a w).wordAt a :=
        (s.placeWord a w).wordAt_placeWords_of_later a Nat.one_pos (by omega)
      rw [Nat.mul_zero, BitVec.add_zero]
      exact hlater.trans (s.wordAt_placeWord_same a w)
    | succ k =>
      rw [add_ofNat_four_mul_succ]
      exact ih (s.placeWord a w) (a + 4#32) (by omega) (by omega)

@[simp] theorem State.loadProgram_config (s : State) (ws : List Word) : (s.loadProgram ws).config = s.config :=
  s.placeWords_config s.config.resetPc ws

/-- Settles O52: the loader places the words from `RESET_PC` on, and the first cycle after reset fetches there. -/
theorem loadedProgramIsFetched : Obligations.LoadedProgramIsFetched := by
  intro s ws hlen
  refine ⟨fun k hk => s.wordAt_placeWords s.config.resetPc hlen hk, ?_⟩
  rintro w rest rfl hadmits
  have hfirst : (s.loadProgram (w :: rest)).wordAt s.config.resetPc = w := by
    simpa [State.loadProgram] using s.wordAt_placeWords s.config.resetPc hlen (Nat.succ_pos _)
  rw [State.fetch_assertReset (by rwa [State.loadProgram_config]), State.loadProgram_config, hfirst]

end Sys2Proof.Machine
end
